-- ==== Sys2Proof/Word.lean ====
section
/-! DEFINITION. The word types: the byte of registers, memory cells and instruction bytes (R6, R9, R60) and the
9-bit word of the program counter and of the fault record's fields (R26, R32). Every value is unsigned (R9). -/

namespace Sys2Proof

/-- A general register, a memory cell, an opcode byte or an operand byte: 8 bits, unsigned (R6, R9). -/
abbrev Byte := BitVec 8

/-- The program counter and the fields `fault.pc` and `fault.info`: 9 bits, unsigned (R26, R32). -/
abbrev PcWord := BitVec 9

end Sys2Proof
end

