-- ==== Sys2Proof/Config.lean ====
section
/-! DEFINITION. The implementation parameters of R6. All but one have a value there; the open one,
`CYCLES_PER_STEP`, is an uninterpreted constant. -/

namespace Sys2Proof

/-- `NREGS`: the number of general registers (R6, R21). -/
abbrev Config.nregs : Nat := 8

/-- The index of a general register, 0 to 7 (R21). -/
abbrev RegIdx := Fin Config.nregs

/-- `SP_INDEX`: the register PUSH, POP, CALL and RET use implicitly (R6, R23). -/
abbrev Config.sp : RegIdx := 7

/-- `SP_RESET`: the reset value of register 7 (R6, R47). -/
abbrev Config.spReset : Byte := 0xF4#8

/-- `GPR_RESET`: the reset value of registers 0 to 6 (R6, R47; the spec's own decision D12, log entry 2). -/
abbrev Config.gprReset : Byte := 0x00#8

/-- `MEM_SIZE`: the number of memory cells (R6, R60). -/
abbrev Config.memSize : Nat := 256

/-- `MEM_RESET`: what a memory cell holds after reset (R6, R77). -/
abbrev Config.memReset : Byte := 0x00#8

/-- `CYCLES_PER_STEP`: "OPEN, any positive number, read by no rule" (R6, R230, D17; log entry 7). It has no body, so
nothing can evaluate it; no definition of the model reads it. -/
opaque Config.cyclesPerStep : ℕ+

end Sys2Proof
end

