-- ==== Sys2Proof/Syntax.lean ====
section
/-! DEFINITION. The nine instructions (R95), one constructor per row of spec/opcode_table.json, with their operand
bytes whole (R94), and the nine kinds the decoder names (R41, R98). -/

namespace Sys2Proof

/-- What the instruction decoder answers for a defined opcode byte: one of nine (R41, R98). -/
inductive Kind where
  | ldi | prn | hlt | add | mul | push | pop | call | ret
  deriving DecidableEq, Repr

/-- An instruction with its operand bytes. "Each operand is the whole byte" (R94): a byte that names a register is kept
as the byte it is, since one above 7 is a legal encoding whose execution raises RegisterIndexOutOfRange (R103). -/
inductive Instr where
  /-- LDI,a,b: register `a` becomes the immediate `b` (R130). -/
  | ldi (a b : Byte)
  /-- PRN,a: register `a` goes to the output port (R131). -/
  | prn (a : Byte)
  /-- HLT: the core stops (R132). -/
  | hlt
  /-- ADD,a,b: register `a` becomes the sum modulo 256 (R140). -/
  | add (a b : Byte)
  /-- MUL,a,b: register `a` becomes the product modulo 256 (R141). -/
  | mul (a b : Byte)
  /-- PUSH,a: register `a` goes on the register-7 stack (R150). -/
  | push (a : Byte)
  /-- POP,a: register `a` comes from the register-7 stack (R151). -/
  | pop (a : Byte)
  /-- CALL,a: push the return address and go to the address in register `a` (R160). -/
  | call (a : Byte)
  /-- RET: pop the pc (R161). -/
  | ret
  deriving DecidableEq, Repr

end Sys2Proof
end

