-- ==== Sys2Proof/WellFormed.lean ====
section
/-! DEFINITION. Well-formed instructions: every operand byte that names a register is 0 to 7 (R94, R103).
An instruction that is not well-formed still decodes, and its execution raises RegisterIndexOutOfRange. -/

namespace Sys2Proof

/-- The operand byte is a register index, 0 to 7 (R103). -/
def namesRegister (operand : Byte) : Bool := operand.toNat < Config.nregs

/-- The operand bytes in register-index positions, in the order they are checked (R94, R103, the second column of R104).
LDI's second operand is an immediate and is never checked. -/
def Instr.registerOperands : Instr → List Byte
  | .ldi a _ => [a]
  | .prn a => [a]
  | .hlt => []
  | .add a b => [a, b]
  | .mul a b => [a, b]
  | .push a => [a]
  | .pop a => [a]
  | .call a => [a]
  | .ret => []

/-- Every operand byte in a register-index position names a register (R94, R103). -/
def Instr.wellFormed (i : Instr) : Bool := i.registerOperands.all namesRegister

end Sys2Proof
end

