-- ==== Sys2Proof/Decode.lean ====
section
/-! DEFINITION. The opcode map (R95), the operand count (R91), the decoder, total on any bytes and rejecting by name
(R93, R96, R98), and the encoder (R92). -/

namespace Sys2Proof

/-- The opcode byte of each kind: the nine literals of R95, as the spec writes them in binary. -/
def Kind.opcode : Kind → Byte
  | .ldi => 0b10000010#8
  | .prn => 0b01000111#8
  | .hlt => 0b00000001#8
  | .add => 0b10100000#8
  | .mul => 0b10100010#8
  | .push => 0b01000101#8
  | .pop => 0b01000110#8
  | .call => 0b01010000#8
  | .ret => 0b00010001#8

/-- The nine kinds, in the order of R95. -/
def Kind.all : List Kind := [.ldi, .prn, .hlt, .add, .mul, .push, .pop, .call, .ret]

/-- `Decode(ir)` of R98: a match of the whole byte (R91), `none` being Unknown (R96). -/
def decodeOpcode (ir : Byte) : Option Kind := Kind.all.find? (fun k => k.opcode == ir)

/-- The operand count `n = ir[7:6] = (ir >> 6) & 0b11` (R91). -/
def operandCount (ir : Byte) : Nat := ((ir >>> 6) &&& 0b11#8).toNat

/-- The kind with its operand bytes; a byte the format does not have is not used (R92, R94). -/
def Kind.instr (k : Kind) (a b : Byte) : Instr :=
  match k with
  | .ldi => .ldi a b
  | .prn => .prn a
  | .hlt => .hlt
  | .add => .add a b
  | .mul => .mul a b
  | .push => .push a
  | .pop => .pop a
  | .call => .call a
  | .ret => .ret

/-- Why bytes do not decode. -/
inductive DecodeError where
  /-- There is no opcode byte. -/
  | noOpcode
  /-- The opcode byte is none of the nine (R96). -/
  | unknownInstruction (ir : Byte)
  /-- The opcode needs a first operand byte and there is none. -/
  | noOperandA
  /-- The opcode needs a second operand byte and there is none. -/
  | noOperandB
  deriving DecidableEq, Repr

/-- Take the `n` operand bytes a defined opcode needs, the first before the second (R92, R93, R100). -/
def decodeOperands (k : Kind) (n : Nat) (bytes : List Byte) : Except DecodeError (Instr × List Byte) :=
  match n, bytes with
  | 0, rest => .ok (k.instr 0 0, rest)
  | 1, a :: rest => .ok (k.instr a 0, rest)
  | _ + 2, a :: b :: rest => .ok (k.instr a b, rest)
  | _ + 1, [] => .error .noOperandA
  | _ + 2, [_] => .error .noOperandB

/-- The instruction at the head of the bytes and the bytes after it, or the reason there is none. The opcode is looked
at before any operand, so an unknown opcode wins over missing operands (R96, R187). -/
def decode : List Byte → Except DecodeError (Instr × List Byte)
  | [] => .error .noOpcode
  | ir :: rest =>
    match decodeOpcode ir with
    | none => .error (.unknownInstruction ir)
    | some k => decodeOperands k (operandCount ir) rest

/-- The kind of an instruction. -/
def Instr.kind : Instr → Kind
  | .ldi _ _ => .ldi
  | .prn _ => .prn
  | .hlt => .hlt
  | .add _ _ => .add
  | .mul _ _ => .mul
  | .push _ => .push
  | .pop _ => .pop
  | .call _ => .call
  | .ret => .ret

/-- The operand bytes of an instruction, in address order (R92). -/
def Instr.operands : Instr → List Byte
  | .ldi a b => [a, b]
  | .prn a => [a]
  | .hlt => []
  | .add a b => [a, b]
  | .mul a b => [a, b]
  | .push a => [a]
  | .pop a => [a]
  | .call a => [a]
  | .ret => []

/-- The bytes of an instruction, at ascending addresses: the opcode, then its operands (R63, R90, R92). -/
def encode (i : Instr) : List Byte := i.kind.opcode :: i.operands

/-- The bytes of an instruction given as a number of `nbits` bits, bit 0 being the least significant bit of the first
byte: the three bytes of the longest instruction (R90), those above `nbits` being zero. -/
def tableBytes (nbits w : Nat) : List Byte :=
  let v := w % 2 ^ nbits
  [BitVec.ofNat 8 v, BitVec.ofNat 8 (v / 256), BitVec.ofNat 8 (v / 65536)]

/-- The instruction the decoder reads from an instruction whose bits are `w`, numbered as spec/opcode_table.json numbers
them. -/
def decodeTableWord (nbits w : Nat) : Option Instr :=
  match decode (tableBytes nbits w) with
  | .ok (i, _) => some i
  | .error _ => none

end Sys2Proof
end

