-- ==== Sys2Proof/Machine/State.lean ====
section
/-! DEFINITION. The complete architectural state (R20) as plain data, the reasons a step could stop, and the state after
reset (R47). Each field's home and rule stand in its docstring; INVENTORY.md lists them. -/

namespace Sys2Proof.Machine

/-- The memory: (address, byte) pairs, addresses strictly rising, no address above 255, and no byte equal to the reset
value 0x00 that an unlisted address reads as (R60, R77). -/
abbrev Memory := List Host.Cell

/-- The canonical form of a memory. -/
abbrev Memory.wf (m : Memory) : Prop :=
  m.Pairwise (fun c d => c.1 < d.1) ∧ ∀ c ∈ m, c.1 < Config.memSize ∧ c.2 ≠ Config.memReset

/-- The engine status (R31). R45 gives its port two bits and no encoding (log entry 9). -/
inductive Status where
  | running
  | halted
  | faulted
  deriving DecidableEq, Repr

/-- The cause in the fault record, one per code of R180. -/
inductive FaultCause where
  /-- Code 0: no fault. -/
  | noFault
  /-- Code 1: the opcode byte is none of the nine. -/
  | unknownInstruction
  /-- Code 2: the `alu` block was given an operation other than ADD or MUL. -/
  | unsupportedALUOperation
  /-- Code 3: a register-index operand is above 7. -/
  | registerIndexOutOfRange
  /-- Code 4: an address is above 255. -/
  | addressOutOfRange
  deriving DecidableEq, Repr

/-- The fault record (R32). -/
structure FaultRecord where
  /-- What stopped the core; its 3-bit code is `FaultCause.code`. -/
  cause : FaultCause
  /-- The pc at the start of the faulting step. -/
  pc : PcWord
  /-- The offending opcode byte, register index or address. -/
  info : PcWord
  deriving DecidableEq, Repr

/-- What `raise` is given: a fault and its information (R10, R180). -/
inductive Raise where
  /-- An opcode byte that is none of the nine; raised by the fetch of a step (R96, R181). -/
  | unknownInstruction (ir : Byte)
  /-- An operation the ALU does not have; raised by `alu`, unreachable in the assembled core (R142, R143, R182). -/
  | unsupportedALUOperation (op : Byte)
  /-- An operand byte above 7 where a register is named; raised by every instruction with such an operand (R103, R183). -/
  | registerIndexOutOfRange (operand : Byte)
  /-- An address above 255; raised by fetch, by needed operand reads and by CALL (R65, R184). -/
  | addressOutOfRange (addr : Nat)
  deriving DecidableEq, Repr

/-- The state of the machine (R20). -/
structure State where
  /-- `x[0]` to `x[7]`: the general registers (R21). -/
  regs : Vector Byte Config.nregs
  /-- `pc`: the address of the next instruction to fetch (R26). -/
  pc : PcWord
  /-- `halted`: set by HLT only (R30). -/
  halted : Bool
  /-- `mem[0]` to `mem[255]`: the one memory (R60). -/
  mem : Memory
  /-- `status`: the engine status (R31). -/
  status : Status
  /-- `fault`: what stopped the core when `status` is `faulted` (R32). -/
  fault : FaultRecord
  /-- The output stream, oldest value first: the history of the output port, appended to by PRN only (R20, R45). -/
  out : List Byte
  deriving DecidableEq, Repr

/-- Why a step could stop without a next state. This machine has no such reason: every fault of R180 is entered by
`raise`, which R188 describes as a change of state, so it is a next state (log entry 1). -/
inductive Fault where
  deriving DecidableEq, Repr

/-- Why an instruction could have no meaning. -/
inductive Refusal where
  /-- An instruction without a meaning yet; no arm of `exec` answers with it, so nothing raises it. Safe. -/
  | notModelled (mnemonic : String)
  deriving DecidableEq, Repr

/-- The outcome of one step. -/
abbrev StepOutcome := Host.Outcome State Fault Refusal

/-- The fault record after reset, "0, 0, 0" (R32, R47). -/
def FaultRecord.none : FaultRecord := ⟨.noFault, 0#9, 0#9⟩

/-- The machine right after reset (R47, R220). -/
def State.reset : State where
  regs := #v[Config.gprReset, Config.gprReset, Config.gprReset, Config.gprReset,
    Config.gprReset, Config.gprReset, Config.gprReset, Config.spReset]
  pc := 0#9
  halted := false
  mem := []
  status := .running
  fault := FaultRecord.none
  out := []

end Sys2Proof.Machine
end

