-- ==== Sys2Proof/Machine/Ops.lean ====
section
/-! DEFINITION. The primitives of R10 over registers, pc, memory and output, `raise` as the one shared way of taking a
fault (R188), and `commit`, which ends an instruction: its new state, or its raise with none of its writes. There is no
return from a fault (R190): only reset leaves `faulted`. -/

namespace Sys2Proof.Machine

/-- The numeric code of a cause (R180, D4). -/
def FaultCause.code : FaultCause → BitVec 3
  | .noFault => 0
  | .unknownInstruction => 1
  | .unsupportedALUOperation => 2
  | .registerIndexOutOfRange => 3
  | .addressOutOfRange => 4

/-- The cause that a raise records (R180). -/
def Raise.cause : Raise → FaultCause
  | .unknownInstruction _ => .unknownInstruction
  | .unsupportedALUOperation _ => .unsupportedALUOperation
  | .registerIndexOutOfRange _ => .registerIndexOutOfRange
  | .addressOutOfRange _ => .addressOutOfRange

/-- The `fault.info` that a raise records: the opcode byte, operation byte, operand byte or address (R180). -/
def Raise.info : Raise → PcWord
  | .unknownInstruction ir => ir.setWidth 9
  | .unsupportedALUOperation op => op.setWidth 9
  | .registerIndexOutOfRange operand => operand.setWidth 9
  | .addressOutOfRange addr => BitVec.ofNat 9 addr

/-- Fault entry, "all at once and nothing else": the record is written, the status becomes `faulted`; registers, pc,
halted, memory and output are unchanged (R188). -/
def State.raise (s : State) (r : Raise) : State :=
  { s with status := .faulted, fault := ⟨r.cause, s.pc, r.info⟩ }

/-- End an instruction begun in `s`: its result, or its raise taken in `s`, so that a faulting instruction has no
partial effect (R10, R189). -/
def State.commit (s : State) (r : Except Raise State) : StepOutcome :=
  match r with
  | .ok t => .next t
  | .error e => .next (s.raise e)

/-- `x[r]` (R10, R21). -/
def State.reg (s : State) (r : RegIdx) : Byte := s.regs[r.val]

/-- `x[r] <- v` (R10, R21). -/
def State.setReg (s : State) (r : RegIdx) (v : Byte) : State := { s with regs := s.regs.set r.val v }

/-- The byte at an address: the one listed, or the reset value (R61, R77). -/
def Memory.read (m : Memory) (addr : Nat) : Byte :=
  match m with
  | [] => Config.memReset
  | c :: rest => if c.1 = addr then c.2 else Memory.read rest addr

/-- The memory without an entry for the address, which then reads as the reset value. -/
def Memory.erase (m : Memory) (addr : Nat) : Memory := m.filter (fun c => c.1 != addr)

/-- The memory with an entry put before the first higher address. -/
def Memory.insert (m : Memory) (addr : Nat) (v : Byte) : Memory :=
  match m with
  | [] => [(addr, v)]
  | c :: rest => if addr < c.1 then (addr, v) :: c :: rest else c :: Memory.insert rest addr v

/-- Replace the value of one cell (R61), keeping the canonical form. -/
def Memory.write (m : Memory) (addr : Nat) (v : Byte) : Memory :=
  if v = Config.memReset then m.erase addr else (m.erase addr).insert addr v

/-- `MemRead(addr, 1)`, with the range check of R65. -/
def State.memRead (s : State) (addr : Nat) : Except Raise Byte :=
  if addr < Config.memSize then .ok (s.mem.read addr) else .error (.addressOutOfRange addr)

/-- `MemWrite(addr, 1, v)`, with the range check of R65. -/
def State.memWrite (s : State) (addr : Nat) (v : Byte) : Except Raise State :=
  if addr < Config.memSize then .ok { s with mem := s.mem.write addr v } else .error (.addressOutOfRange addr)

/-- The default advance `pc <- pc + n + 1`, `n` being bits 7:6 of the opcode (R44, R101). -/
def State.advance (s : State) (k : Kind) : State :=
  { s with pc := s.pc + BitVec.ofNat 9 (operandCount k.opcode + 1) }

/-- `pc <- zext_9(target)`: the control transfer of CALL and RET (R9, R44). -/
def State.jump (s : State) (target : Byte) : State := { s with pc := target.setWidth 9 }

/-- `Out(v)`: present `v` on the output port (R10, R45). -/
def State.emit (s : State) (v : Byte) : State := { s with out := s.out ++ [v] }

/-- Set the halted flag and the status together (R132, R20). -/
def State.halt (s : State) : State := { s with halted := true, status := .halted }

end Sys2Proof.Machine
end

