-- ==== Sys2Proof/Machine/Operands.lean ====
section
/-! DEFINITION. The operand forms (R94): a register index with its bounds check (R103), the immediate byte of LDI, which
is used as it is, and the register-7 stack slot that PUSH, POP, CALL and RET address (R70). -/

namespace Sys2Proof.Machine

/-- An operand byte in a register-index position: it must be 0 to 7 and is never reduced modulo 8 (R103). -/
def regIndex (operand : Byte) : Except Raise RegIdx :=
  if h : operand.toNat < Config.nregs then .ok ⟨operand.toNat, h⟩ else .error (.registerIndexOutOfRange operand)

/-- The stack pointer, register 7 (R23). -/
def State.stackPointer (s : State) : Byte := s.reg Config.sp

/-- Push a byte: decrement register 7 modulo 256, then store at the address it then holds (R150, R160). The value is
computed from the state after the decrement, as the statements are written (D11). -/
def State.pushByte (s : State) (value : State → Byte) : Except Raise State :=
  let s' := s.setReg Config.sp (s.stackPointer - 1)
  s'.memWrite s'.stackPointer.toNat (value s')

/-- The byte on top of the stack: the cell register 7 points at (R151, R161). -/
def State.stackTop (s : State) : Except Raise Byte := s.memRead s.stackPointer.toNat

/-- Increment register 7 modulo 256 (R151, R161). -/
def State.dropTop (s : State) : State := s.setReg Config.sp (s.stackPointer + 1)

/-- The return address `pc + 2` of a CALL at `pc`, which must fit a byte (R160, D8). -/
def returnAddress (pc : PcWord) : Except Raise Byte :=
  if pc.toNat + 2 < Config.memSize then .ok (BitVec.ofNat 8 (pc.toNat + 2)) else .error (.addressOutOfRange (pc.toNat + 2))

end Sys2Proof.Machine
end

