-- ==== Sys2Proof/Machine/Alu.lean ====
section
/-! DEFINITION. The ALU block (R43, R142) and the meanings of ADD and MUL (spec/41_alu.md). The machine has no flags
(R46): the carry and the high byte of a product are discarded. -/

namespace Sys2Proof.Machine

/-- The ALU contract of R142: the operation select is the opcode byte (D18). -/
def alu (op va vb : Byte) : Except Raise Byte :=
  if op = 0xA0#8 then .ok (BitVec.ofNat 8 ((va.toNat + vb.toNat) % 256))
  else if op = 0xA2#8 then .ok (BitVec.ofNat 8 ((va.toNat * vb.toNat) % 256))
  else .error (.unsupportedALUOperation op)

/-- An instruction routed through the ALU: check `a`, check `b`, write the result to `x[a]` (R140, R141). -/
def State.aluInstr (s : State) (k : Kind) (a b : Byte) : Except Raise State := do
  let ra ← regIndex a
  let rb ← regIndex b
  let y ← alu k.opcode (s.reg ra) (s.reg rb)
  return (s.setReg ra y).advance k

/-- ADD,a,b (R140). -/
def execAdd (a b : Byte) (s : State) : StepOutcome := s.commit (s.aluInstr .add a b)

/-- MUL,a,b (R141). -/
def execMul (a b : Byte) (s : State) : StepOutcome := s.commit (s.aluInstr .mul a b)

end Sys2Proof.Machine
end

