-- ==== Sys2Proof/Machine/CallReturn.lean ====
section
/-! DEFINITION. The meanings of CALL and RET (spec/43_call_return.md). -/

namespace Sys2Proof.Machine

/-- CALL,a: the target `x[a]` is read after the decrement of register 7 (R160, D11). -/
def execCall (a : Byte) (s : State) : StepOutcome :=
  s.commit do
    let r ← regIndex a
    let ret ← returnAddress s.pc
    let s' ← s.pushByte (fun _ => ret)
    return s'.jump (s'.reg r)

/-- RET (R161). -/
def execRet (s : State) : StepOutcome :=
  s.commit do
    let t ← s.stackTop
    return s.dropTop.jump t

end Sys2Proof.Machine
end

