-- ==== Sys2Proof/Machine/LoadOutputHalt.lean ====
section
/-! DEFINITION. The meanings of LDI, PRN and HLT (spec/40_load_output_halt.md). -/

namespace Sys2Proof.Machine

/-- LDI,a,b (R130). -/
def execLdi (a b : Byte) (s : State) : StepOutcome :=
  s.commit do
    let r ← regIndex a
    return (s.setReg r b).advance .ldi

/-- PRN,a (R131). -/
def execPrn (a : Byte) (s : State) : StepOutcome :=
  s.commit do
    let r ← regIndex a
    return (s.emit (s.reg r)).advance .prn

/-- HLT: the pc keeps the address of the HLT byte (R132, C3). -/
def execHlt (s : State) : StepOutcome := s.commit (.ok s.halt)

end Sys2Proof.Machine
end

