-- ==== Sys2Proof/Machine/Stack.lean ====
section
/-! DEFINITION. The meanings of PUSH and POP (spec/42_stack.md). -/

namespace Sys2Proof.Machine

/-- PUSH,a: `x[a]` is read after the decrement of register 7 (R150, D11). -/
def execPush (a : Byte) (s : State) : StepOutcome :=
  s.commit do
    let r ← regIndex a
    let s' ← s.pushByte (fun t => t.reg r)
    return s'.advance .push

/-- POP,a: register 7 is incremented after `x[a]` is written (R151, D11). -/
def execPop (a : Byte) (s : State) : StepOutcome :=
  s.commit do
    let r ← regIndex a
    let v ← s.stackTop
    return (s.setReg r v).dropTop.advance .pop

end Sys2Proof.Machine
end

