-- ==== Sys2Proof/Machine/Fetch.lean ====
section
/-! DEFINITION. The fetch unit and the decoder's use of it (R40, R41, R100): which bytes are at the pc, which
instruction they are, and which fault a fetch raises. -/

namespace Sys2Proof.Machine

/-- The memory bytes at `addr`, `addr + 1`, ... up to `n` of them, ending with the last cell of memory: a read beyond
address 255 gives nothing (R40, R67). -/
def Memory.bytesFrom (m : Memory) (addr : Nat) (n : Nat) : List Byte :=
  match n with
  | 0 => []
  | n + 1 => if addr < Config.memSize then m.read addr :: Memory.bytesFrom m (addr + 1) n else []

/-- What the fetch unit reads: the bytes at `pc`, `pc + 1` and `pc + 2` that exist, whether or not the instruction uses
them (R40, R67). -/
def State.fetchBytes (s : State) : List Byte := s.mem.bytesFrom s.pc.toNat 3

/-- The fault of a fetch that finds no instruction at `pc` (R100): a missing byte is an address out of range (R65). -/
def fetchRaise (pc : PcWord) : DecodeError → Raise
  | .noOpcode => .addressOutOfRange pc.toNat
  | .unknownInstruction ir => .unknownInstruction ir
  | .noOperandA => .addressOutOfRange (pc.toNat + 1)
  | .noOperandB => .addressOutOfRange (pc.toNat + 2)

/-- Fetch and decode: the instruction at the pc, or the fault its fetch raises (R100). -/
def State.fetch (s : State) : Except Raise Instr :=
  match decode s.fetchBytes with
  | .ok (i, _) => .ok i
  | .error e => .error (fetchRaise s.pc e)

/-- One cycle of a running core (R100). -/
def State.cycle (s : State) : StepOutcome :=
  match s.fetch with
  | .ok i => exec i s
  | .error r => .next (s.raise r)

/-- Store bytes at ascending addresses, those that fall inside memory. -/
def Memory.writeFrom (m : Memory) (addr : Nat) (bytes : List Byte) : Memory :=
  match bytes with
  | [] => m
  | v :: rest => if addr < Config.memSize then Memory.writeFrom (m.write addr v) (addr + 1) rest else m

end Sys2Proof.Machine
end

