-- ==== Sys2Proof/Machine/Step.lean ====
section
/-! DEFINITION. One step of the core (R100, R226, R227). -/

namespace Sys2Proof.Machine

/-- `Step()` of R100. A step asked of a core that is not running changes nothing (R227). -/
def step (s : State) : Host.Outcome State Fault Refusal :=
  match s.status with
  | .running => s.cycle
  | .halted => .next s
  | .faulted => .next s

/-- The state with an instruction, its bits numbered as spec/opcode_table.json numbers them, stored at the pc: the host's
load of that instruction (R222; log entry 5). -/
def State.withFetchWord (s : State) (nbits w : Nat) : State :=
  { s with mem := s.mem.writeFrom s.pc.toNat (tableBytes nbits w) }

end Sys2Proof.Machine
end

