-- ==== Sys2Proof/Machine/HostPort.lean ====
section
/-! DEFINITION. What the host sees of the core and asks of it (R45, R226, R233): the diagnostic port, the optional trace
port, the output of one step, and a run. None of them changes any state. -/

namespace Sys2Proof.Machine

/-- The diagnostic port (R45). -/
structure DiagnosticPort where
  halted : Bool
  status : Status
  faultCause : BitVec 3
  faultPc : PcWord
  faultInfo : PcWord
  deriving DecidableEq, Repr

/-- The diagnostic port of a state, "readable at any time" (R45). -/
def State.diagnosticPort (s : State) : DiagnosticPort where
  halted := s.halted
  status := s.status
  faultCause := s.fault.cause.code
  faultPc := s.fault.pc
  faultInfo := s.fault.info

/-- The optional trace: "PC, next three memory bytes, all register values" (R45, R196). -/
structure TracePort where
  pc : PcWord
  regs : Vector Byte Config.nregs
  bytes : List (Option Byte)
  deriving DecidableEq, Repr

/-- The trace of a state; a byte above address 255 is shown as absent, and the trace never faults (R196, D21). -/
def State.tracePort (s : State) : TracePort where
  pc := s.pc
  regs := s.regs
  bytes := [0, 1, 2].map fun k =>
    if s.pc.toNat + k < Config.memSize then some (s.mem.read (s.pc.toNat + k)) else none

/-- What a step presents on the output port (R45): the values it appends to the output stream. -/
def stepOutput (s : State) : List Byte :=
  match step s with
  | .next t => t.out.drop s.out.length
  | .fault _ => []
  | .refused _ => []

/-- `run`, bounded by the host to `n` steps: `step` repeated while the status is running (R226). -/
def runWhile (n : Nat) (s : State) : StepOutcome :=
  match n with
  | 0 => .next s
  | n + 1 =>
    if s.status = .running then
      match step s with
      | .next t => runWhile n t
      | .fault r => .fault r
      | .refused r => .refused r
    else .next s

end Sys2Proof.Machine
end

