-- ==== Sys2Proof/Machine/Loader.lean ====
section
/-! DEFINITION. The host's program loader (R106, R223 to R225) and the bring-up of R222: reset, then load. A program text
is a list of characters. Not one of the six hardware blocks (R4, C4): it decides the memory image the core starts from. -/

namespace Sys2Proof.Machine

/-- Why a load fails; the host must not then start the core (R224, R225). -/
inductive LoadError where
  /-- The program text could not be read (R225). -/
  | sourceUnavailable
  /-- A literal's value is above 255 (R224). -/
  | valueAbove255 (v : Nat)
  /-- There is a 257th value (R224). -/
  | tooManyValues
  deriving DecidableEq, Repr

/-- The part of a line before the first `#` (R106, R223). -/
def stripComment (line : List Char) : List Char := line.takeWhile (· != '#')

/-- Leading and trailing whitespace removed (R223; the set of characters: log entry 4). -/
def trimSpaces (cs : List Char) : List Char :=
  ((cs.dropWhile Char.isWhitespace).reverse.dropWhile Char.isWhitespace).reverse

/-- The value of a non-empty string of `0` and `1`, first character most significant; anything else is no literal
(R223, D24). -/
def parseBinary (cs : List Char) : Option Nat :=
  if cs ≠ [] ∧ cs.all (fun c => c == '0' || c == '1') then
    some (cs.foldl (fun n c => 2 * n + if c = '1' then 1 else 0) 0)
  else none

/-- The value on a line, or nothing for a line that is skipped (R223). -/
def parseLine (line : List Char) : Option Nat := parseBinary (trimSpaces (stripComment line))

/-- `Load(lines)` of R223 from the given address counter and memory. -/
def loadLines (lines : List (List Char)) (addr : Nat) (m : Memory) : Except LoadError Memory :=
  match lines with
  | [] => .ok m
  | line :: rest =>
    match parseLine line with
    | none => loadLines rest addr m
    | some v =>
      if 255 < v then .error (.valueAbove255 v)
      else if 255 < addr then .error .tooManyValues
      else loadLines rest (addr + 1) (m.write addr (BitVec.ofNat 8 v))

/-- The lines of a text (R223 reads "line by line"; that a line feed ends a line: log entry 4). -/
def splitLines (text : List Char) : List (List Char) :=
  match text with
  | [] => [[]]
  | c :: rest =>
    if c = '\n' then [] :: splitLines rest
    else
      match splitLines rest with
      | [] => [[c]]
      | line :: lines => (c :: line) :: lines

/-- Reset, then load: the state the first step starts from, or the reason the core must not be started (R222, R225).
`none` is a source that cannot be read. -/
def boot (source : Option (List Char)) : Except LoadError State :=
  match source with
  | none => .error .sourceUnavailable
  | some text =>
    match loadLines (splitLines text) 0 State.reset.mem with
    | .ok m => .ok { State.reset with mem := m }
    | .error e => .error e

/-- A byte written as an 8-bit binary literal, most significant bit first (R225). -/
def formatBinary (v : Byte) : List Char := (List.range 8).map (fun k => if v.getMsbD k then '1' else '0')

end Sys2Proof.Machine
end

