-- ==== Sys2Proof/Safety.lean ====
section
/-! DEFINITION. The terms claims are stated in: the invariant of every reachable state, the ways a run ends (R229), the
launch premises (R234), the first fault of a step by the order of R187, and which registers an instruction reads and
writes (R24). -/

namespace Sys2Proof.Machine

/-- The fault record says what stopped the core, and says nothing while nothing has (R20, R32, R180, R184, R188). -/
def State.FaultRecordFits (s : State) : Prop :=
  match s.status with
  | .running => s.fault = FaultRecord.none
  | .halted => s.fault = FaultRecord.none
  | .faulted =>
    s.fault.pc = s.pc ∧
    match s.fault.cause with
    | .noFault => False
    | .unknownInstruction =>
      s.pc.toNat ≤ 255 ∧ s.fault.info.toNat = (s.mem.read s.pc.toNat).toNat ∧
        decodeOpcode (s.mem.read s.pc.toNat) = none
    | .unsupportedALUOperation => False
    | .registerIndexOutOfRange => 8 ≤ s.fault.info.toNat ∧ s.fault.info.toNat ≤ 255
    | .addressOutOfRange => s.fault.info.toNat = 256

/-- What holds in every reachable state. -/
structure State.Inv (s : State) : Prop where
  /-- The memory is in canonical form, with no cell outside 0 to 255 (R60). -/
  memWf : s.mem.wf
  /-- "So `pc <= 256` in every reachable state" (R28). -/
  pcInRange : s.pc.toNat ≤ 256
  /-- "`status = halted` exactly when `halted = true`" (R20). -/
  haltedMatches : s.status = .halted ↔ s.halted = true
  /-- The fault record fits the status. -/
  faultFits : s.FaultRecordFits

/-- The state after a fault entry as R188 writes it: the record and the status, nothing else. -/
def State.afterFault (s : State) (cause : FaultCause) (info : PcWord) : State :=
  { s with status := .faulted, fault := ⟨cause, s.pc, info⟩ }

/-- A run ended HALTED (R229). -/
def State.EndedHalted (s : State) : Prop :=
  s.status = .halted ∧ s.halted = true ∧ s.fault.cause = .noFault

/-- A run ended FAULTED (R229). -/
def State.EndedFaulted (s : State) : Prop :=
  s.status = .faulted ∧ s.halted = false ∧ s.fault.cause ≠ .noFault ∧ s.fault.pc = s.pc

/-- The launch premises of R234 for an image of loaded values, `L_HOST_QUIET` apart, which is about the host. -/
structure State.Launch (s : State) (image : List Byte) : Prop where
  /-- `L_RUNNING`. -/
  running : s.status = .running ∧ s.halted = false
  /-- `L_NO_FAULT`. -/
  noFault : s.fault = FaultRecord.none
  /-- `L_PC0`. -/
  pcZero : s.pc.toNat = 0
  /-- `L_SP`. -/
  stackPointer : s.reg 7 = 0xF4#8
  /-- `L_GPR0`. -/
  gprZero : ∀ r : RegIdx, r.val < 7 → s.reg r = 0x00#8
  /-- `L_IMAGE`. -/
  image : image.length ≤ 256 ∧ ∀ addr, s.mem.read addr = image.getD addr 0x00#8
  /-- `L_NO_OUTPUT`. -/
  noOutput : s.out = []

/-- The fault a step of a running core raises, as the first that applies in the fixed order of R187, read straight off the
bytes in memory. -/
def State.firstFault (s : State) : Option Raise :=
  let pc := s.pc.toNat
  let ir := s.mem.read pc
  let n := ir.toNat / 64
  let a := s.mem.read (pc + 1)
  let b := s.mem.read (pc + 2)
  if 255 < pc then some (.addressOutOfRange pc)
  else if ir ∉ [0x82#8, 0x47#8, 0x01#8, 0xA0#8, 0xA2#8, 0x45#8, 0x46#8, 0x50#8, 0x11#8] then
    some (.unknownInstruction ir)
  else if 1 ≤ n ∧ 255 < pc + 1 then some (.addressOutOfRange (pc + 1))
  else if 2 ≤ n ∧ 255 < pc + 2 then some (.addressOutOfRange (pc + 2))
  else if 1 ≤ n ∧ 7 < a.toNat then some (.registerIndexOutOfRange a)
  else if ir ∈ [0xA0#8, 0xA2#8] ∧ 7 < b.toNat then some (.registerIndexOutOfRange b)
  else if ir = 0x50#8 ∧ 255 < pc + 2 then some (.addressOutOfRange (pc + 2))
  else none

end Sys2Proof.Machine

namespace Sys2Proof

/-- The instruction reads register `r` (the table of R24). -/
def Instr.readsReg (i : Instr) (r : RegIdx) : Prop :=
  match i with
  | .ldi _ _ => False
  | .prn a => r.val = a.toNat
  | .hlt => False
  | .add a b => r.val = a.toNat ∨ r.val = b.toNat
  | .mul a b => r.val = a.toNat ∨ r.val = b.toNat
  | .push a => r.val = 7 ∨ r.val = a.toNat
  | .pop _ => r.val = 7
  | .call a => r.val = 7 ∨ r.val = a.toNat
  | .ret => r.val = 7

/-- The instruction writes register `r` (the table of R24). -/
def Instr.writesReg (i : Instr) (r : RegIdx) : Prop :=
  match i with
  | .ldi a _ => r.val = a.toNat
  | .prn _ => False
  | .hlt => False
  | .add a _ => r.val = a.toNat
  | .mul a _ => r.val = a.toNat
  | .push _ => r.val = 7
  | .pop a => r.val = a.toNat ∨ r.val = 7
  | .call _ => r.val = 7
  | .ret => r.val = 7

end Sys2Proof
end

