-- ==== Sys2Proof/Certificates/Slice0/Obligations.lean ====
section
/-! DEFINITION. What is to be proved of the model, from the spec's numbered rules. OBLIGATIONS.json lists the statements in
this order. A docstring names the rule or section of spec/ it formalises, and the spec's decision D<n> or "[derived]" mark
where the statement rests on one. -/

open Sys2Proof Sys2Proof.Machine

/-! ### Encoding -/

/-- Decoding an encoded instruction, whatever bytes follow, gives it back with every operand at every value, and leaves the
bytes that follow (30_encoding.md sections 1 to 4). -/
def Obligations.DecodeOfEncodeIsIdentity : Prop :=
  ∀ (i : Instr) (rest : List Byte), decode (encode i ++ rest) = .ok (i, rest)

/-- The decoder accepts nothing but encodings: what it reads is the encoding of what it answers, and it returns exactly the
bytes after it (30_encoding.md sections 1 to 4). -/
def Obligations.DecodeAcceptsOnlyEncodings : Prop :=
  ∀ (bytes : List Byte) (i : Instr) (rest : List Byte), decode bytes = .ok (i, rest) → bytes = encode i ++ rest

/-- The table of R95: opcode byte, operand count in bits 7:6 and length of each of the nine. -/
def Obligations.NineOpcodesAsTabled : Prop :=
  (Kind.all.map fun k => (k, k.opcode, operandCount k.opcode, (encode (k.instr 0 0)).length)) =
    [(.ldi, 0x82#8, 2, 3), (.prn, 0x47#8, 1, 2), (.hlt, 0x01#8, 0, 1), (.add, 0xA0#8, 2, 3), (.mul, 0xA2#8, 2, 3),
     (.push, 0x45#8, 1, 2), (.pop, 0x46#8, 1, 2), (.call, 0x50#8, 1, 2), (.ret, 0x11#8, 0, 1)] ∧
  ∀ k ∈ Kind.all, (k.instr 0 0).kind = k ∧ decodeOpcode k.opcode = some k

/-- `Decode` of R98: nine byte values name their kind and the other 247 are Unknown. -/
def Obligations.OpcodeDecodeIsTotal : Prop :=
  (∀ ir : Byte, decodeOpcode ir =
    if ir = 0x82#8 then some .ldi else if ir = 0x47#8 then some .prn else if ir = 0x01#8 then some .hlt
    else if ir = 0xA0#8 then some .add else if ir = 0xA2#8 then some .mul else if ir = 0x45#8 then some .push
    else if ir = 0x46#8 then some .pop else if ir = 0x50#8 then some .call else if ir = 0x11#8 then some .ret
    else none) ∧
  ((List.range 256).filter fun v => (decodeOpcode (BitVec.ofNat 8 v)).isNone).length = 247

/-- Instructions written out bit by bit from the spec's encodings (R92, R95) decode to what they stand for, one of each
family, and a neighbour of ADD is refused. -/
def Obligations.HandWrittenWordsDecode : Prop :=
  decode [0b10000010#8, 0b00000011#8, 0b11111111#8] = .ok (.ldi 3 255, []) ∧
  decode [0b01000111#8, 0b00000111#8] = .ok (.prn 7, []) ∧
  decode [0b10100000#8, 0b00000010#8, 0b00000100#8] = .ok (.add 2 4, []) ∧
  decode [0b10100010#8, 0b00000110#8, 0b00000001#8] = .ok (.mul 6 1, []) ∧
  decode [0b01000101#8, 0b00000101#8, 0b00010001#8] = .ok (.push 5, [0b00010001#8]) ∧
  decode [0b01010000#8, 0b00000001#8] = .ok (.call 1, []) ∧
  decode [0b00010001#8] = .ok (.ret, []) ∧
  decode [0b10100001#8, 0b00000000#8, 0b00000000#8] = .error (.unknownInstruction 0b10100001#8)

/-! ### The cycle -/

/-- When the bytes at the pc of a running core decode to an instruction, the step is that instruction's execution, with
nothing around it (30_encoding.md section 5). -/
def Obligations.StepRunsDecodedInstruction : Prop :=
  ∀ (s : State) (i : Instr) (rest : List Byte),
    s.status = .running → decode s.fetchBytes = .ok (i, rest) → step s = exec i s

/-- A running core whose memory holds an instruction's whole encoding at the pc executes that instruction, also where it
ends with the last cell of memory (30_encoding.md section 5, 20_memory.md section 3; over-read: the spec's decision D7). -/
def Obligations.StepRunsInstructionInMemory : Prop :=
  ∀ (s : State) (i : Instr),
    s.status = .running → s.pc.toNat + (encode i).length ≤ 256 →
    (∀ k (h : k < (encode i).length), s.mem.read (s.pc.toNat + k) = (encode i)[k]) → step s = exec i s

/-- `Step()` of R100, line by line: a core that is not running; an opcode fetch beyond memory; an unknown opcode; a needed
operand beyond memory; else `Execute(kind, a, b)`; and a faulting step changes only status and fault. -/
def Obligations.StepFollowsTheCycle : Prop :=
  (∀ s : State, s.status ≠ .running → step s = .next s) ∧
  (∀ s : State, s.status = .running → 255 < s.pc.toNat → step s = .next (s.afterFault .addressOutOfRange s.pc)) ∧
  (∀ s : State, s.status = .running → s.pc.toNat ≤ 255 → decodeOpcode (s.mem.read s.pc.toNat) = none →
    step s = .next (s.afterFault .unknownInstruction ((s.mem.read s.pc.toNat).setWidth 9))) ∧
  (∀ (s : State) (k : Kind), s.status = .running → s.pc.toNat ≤ 255 → decodeOpcode (s.mem.read s.pc.toNat) = some k →
    let n := operandCount (s.mem.read s.pc.toNat)
    (1 ≤ n → 255 < s.pc.toNat + 1 → step s = .next (s.afterFault .addressOutOfRange (s.pc + 1))) ∧
    (n = 2 → s.pc.toNat + 1 ≤ 255 → 255 < s.pc.toNat + 2 →
      step s = .next (s.afterFault .addressOutOfRange (s.pc + 2))) ∧
    ((1 ≤ n → s.pc.toNat + 1 ≤ 255) → (n = 2 → s.pc.toNat + 2 ≤ 255) →
      step s = exec (k.instr (s.mem.read (s.pc.toNat + 1)) (s.mem.read (s.pc.toNat + 2))) s)) ∧
  (∀ s t : State, s.status = .running → step s = .next t → t.status = .faulted →
    t = { s with status := .faulted, fault := t.fault })

/-- A step asked of a halted or a faulted core changes nothing and emits nothing (70_reset_and_hazards.md section 2; for the
faulted core the spec's decision D14). -/
def Obligations.StoppedCoreIgnoresStep : Prop :=
  ∀ s : State, s.status = .halted ∨ s.status = .faulted → step s = .next s

/-- A byte that is none of the nine opcodes stops a running core with UnknownInstruction, the byte and the pc on record, the
pc unmoved, wherever in memory it stands (30_encoding.md section 4; the spec's decisions D5 and D9). -/
def Obligations.UnknownOpcodeStopsAndReports : Prop :=
  ∀ s : State, s.status = .running → s.pc.toNat ≤ 255 →
    s.mem.read s.pc.toNat ∉ [0x82#8, 0x47#8, 0x01#8, 0xA0#8, 0xA2#8, 0x45#8, 0x46#8, 0x50#8, 0x11#8] →
    step s = .next (s.afterFault .unknownInstruction ((s.mem.read s.pc.toNat).setWidth 9))

/-- One step raises at most one fault, the first of the fixed order, and a step to which none applies does not fault
(60_exceptions.md section 3; the spec's decision D9). -/
def Obligations.FirstFaultWins : Prop :=
  ∀ s : State, s.status = .running →
    (∀ r, s.firstFault = some r → step s = .next (s.afterFault r.cause r.info)) ∧
    (s.firstFault = none → ∃ t, step s = .next t ∧ t.status ≠ .faulted ∧ t.fault = s.fault)

/-- Every step answers a next state: there is no stop without one (00_scope.md section 5: all primitives are total, and
`raise` is the only way a step ends without its writes). -/
def Obligations.EveryStepAnswersNext : Prop :=
  (∀ s : State, ∃ t, step s = .next t) ∧ (∀ (i : Instr) (s : State), ∃ t, exec i s = .next t)

/-- A well-formed instruction completes without a fault in every state, CALL where its return address is at most 255
(30_encoding.md section 5; for CALL the spec's decision D8). -/
def Obligations.WellFormedInstructionCompletes : Prop :=
  ∀ (i : Instr) (s : State), i.wellFormed = true → (i.kind = .call → s.pc.toNat ≤ 253) →
    ∃ t, exec i s = .next t ∧ t.fault = s.fault ∧ t.status = if i = .hlt then .halted else s.status

/-- An operand byte above 7 in a register-index position (for LDI only `a`) raises RegisterIndexOutOfRange before any effect of
the instruction, with the first such byte on record, `a` before `b` (30_encoding.md section 5; the spec's decision D6). -/
def Obligations.IllFormedInstructionRaises : Prop :=
  ∀ (i : Instr) (s : State), i.wellFormed = false →
    ∃ operand, i.registerOperands.find? (fun byte => decide (8 ≤ byte.toNat)) = some operand ∧
      exec i s = .next (s.afterFault .registerIndexOutOfRange (operand.setWidth 9))

/-! ### LDI, PRN, HLT -/

/-- LDI,a,b (R130), with its instruction bytes inside memory as R130's frame has them: the effect for every `a` below 8 and
every `b`; the bad index (the spec's decision D6); the operand reads beyond memory (D7), which leave every other step of
the opcode byte to the execution of the bytes in memory. -/
def Obligations.LdiLoadsImmediate : Prop :=
  (∀ (a b : Byte) (s : State) (h : a.toNat < 8), s.pc.toNat ≤ 253 →
    exec (.ldi a b) s = .next { s with regs := s.regs.set a.toNat b h, pc := s.pc + 3 }) ∧
  (∀ (a b : Byte) (s : State), 8 ≤ a.toNat →
    exec (.ldi a b) s = .next (s.afterFault .registerIndexOutOfRange (a.setWidth 9))) ∧
  (∀ s : State, s.status = .running → s.mem.read s.pc.toNat = 0x82#8 →
    (s.pc = 254 ∨ s.pc = 255 → step s = .next (s.afterFault .addressOutOfRange 256)) ∧
    (s.pc.toNat ≤ 253 → step s = exec (.ldi (s.mem.read (s.pc.toNat + 1)) (s.mem.read (s.pc.toNat + 2))) s))

/-- PRN,a (R131), with its bytes inside memory: exactly one item, the register's value, at the end of the output stream; the
bad index and the operand read beyond memory emit nothing (the spec's decisions D6 and D7). -/
def Obligations.PrnEmitsRegister : Prop :=
  (∀ (a : Byte) (s : State) (h : a.toNat < 8), s.pc.toNat ≤ 254 →
    exec (.prn a) s = .next { s with out := s.out ++ [s.reg ⟨a.toNat, h⟩], pc := s.pc + 2 }) ∧
  (∀ (a : Byte) (s : State), 8 ≤ a.toNat →
    exec (.prn a) s = .next (s.afterFault .registerIndexOutOfRange (a.setWidth 9))) ∧
  (∀ s : State, s.status = .running → s.mem.read s.pc.toNat = 0x47#8 →
    (s.pc = 255 → step s = .next (s.afterFault .addressOutOfRange 256)) ∧
    (s.pc.toNat ≤ 254 → step s = exec (.prn (s.mem.read (s.pc.toNat + 1))) s))

/-- HLT (R132): the flag and the status are set and nothing else changes, at every address up to 255, and every further step
is a no-op; no other instruction ends a run without a fault. -/
def Obligations.HltStopsCore : Prop :=
  (∀ s : State, exec .hlt s = .next { s with halted := true, status := .halted }) ∧
  (∀ s : State, s.status = .running → s.pc.toNat ≤ 255 → s.mem.read s.pc.toNat = 0x01#8 →
    step s = .next { s with halted := true, status := .halted }) ∧
  (∀ s t : State, exec .hlt s = .next t → step t = .next t) ∧
  (∀ s t : State, s.status = .running → step s = .next t → t.status = .halted → s.mem.read s.pc.toNat = 0x01#8)

/-! ### ADD, MUL -/

/-- ADD,a,b (R140), with its bytes inside memory: the sum modulo 256 for all registers, equal ones and register 7 among them;
`a` is checked before `b` (the spec's decisions D6 and D9), and the operand reads beyond memory come first (D7). -/
def Obligations.AddAddsModulo256 : Prop :=
  (∀ (a b : Byte) (s : State) (ha : a.toNat < 8) (hb : b.toNat < 8), s.pc.toNat ≤ 253 →
    exec (.add a b) s = .next { s with
      regs := s.regs.set a.toNat
        (BitVec.ofNat 8 (((s.reg ⟨a.toNat, ha⟩).toNat + (s.reg ⟨b.toNat, hb⟩).toNat) % 256)) ha
      pc := s.pc + 3 }) ∧
  (∀ (a b : Byte) (s : State), 8 ≤ a.toNat →
    exec (.add a b) s = .next (s.afterFault .registerIndexOutOfRange (a.setWidth 9))) ∧
  (∀ (a b : Byte) (s : State), a.toNat < 8 → 8 ≤ b.toNat →
    exec (.add a b) s = .next (s.afterFault .registerIndexOutOfRange (b.setWidth 9))) ∧
  (∀ s : State, s.status = .running → s.mem.read s.pc.toNat = 0xA0#8 →
    (s.pc = 254 ∨ s.pc = 255 → step s = .next (s.afterFault .addressOutOfRange 256)) ∧
    (s.pc.toNat ≤ 253 → step s = exec (.add (s.mem.read (s.pc.toNat + 1)) (s.mem.read (s.pc.toNat + 2))) s))

/-- MUL,a,b (R141): the product modulo 256, otherwise as ADD. -/
def Obligations.MulMultipliesModulo256 : Prop :=
  (∀ (a b : Byte) (s : State) (ha : a.toNat < 8) (hb : b.toNat < 8), s.pc.toNat ≤ 253 →
    exec (.mul a b) s = .next { s with
      regs := s.regs.set a.toNat
        (BitVec.ofNat 8 (((s.reg ⟨a.toNat, ha⟩).toNat * (s.reg ⟨b.toNat, hb⟩).toNat) % 256)) ha
      pc := s.pc + 3 }) ∧
  (∀ (a b : Byte) (s : State), 8 ≤ a.toNat →
    exec (.mul a b) s = .next (s.afterFault .registerIndexOutOfRange (a.setWidth 9))) ∧
  (∀ (a b : Byte) (s : State), a.toNat < 8 → 8 ≤ b.toNat →
    exec (.mul a b) s = .next (s.afterFault .registerIndexOutOfRange (b.setWidth 9))) ∧
  (∀ s : State, s.status = .running → s.mem.read s.pc.toNat = 0xA2#8 →
    (s.pc = 254 ∨ s.pc = 255 → step s = .next (s.afterFault .addressOutOfRange 256)) ∧
    (s.pc.toNat ≤ 253 → step s = exec (.mul (s.mem.read (s.pc.toNat + 1)) (s.mem.read (s.pc.toNat + 2))) s))

/-- The ALU contract (41_alu.md, "The ALU block"; that the operation select is the opcode byte is the spec's decision D18). -/
def Obligations.AluContract : Prop :=
  ∀ op va vb : Byte,
    (op = 0xA0#8 → alu op va vb = .ok (BitVec.ofNat 8 ((va.toNat + vb.toNat) % 256))) ∧
    (op = 0xA2#8 → alu op va vb = .ok (BitVec.ofNat 8 ((va.toNat * vb.toNat) % 256))) ∧
    (op ≠ 0xA0#8 → op ≠ 0xA2#8 → alu op va vb = .error (.unsupportedALUOperation op))

/-- ADD and MUL are commutative and associative and MUL distributes over ADD, all modulo 256 (41_alu.md, "Arithmetic laws"). -/
def Obligations.AluArithmeticLaws : Prop :=
  ∀ va vb vc : Byte,
    alu 0xA0 va vb = alu 0xA0 vb va ∧
    alu 0xA2 va vb = alu 0xA2 vb va ∧
    (alu 0xA0 va vb >>= fun x => alu 0xA0 x vc) = (alu 0xA0 vb vc >>= fun y => alu 0xA0 va y) ∧
    (alu 0xA2 va vb >>= fun x => alu 0xA2 x vc) = (alu 0xA2 vb vc >>= fun y => alu 0xA2 va y) ∧
    (alu 0xA0 vb vc >>= fun y => alu 0xA2 va y) =
      (alu 0xA2 va vb >>= fun x => alu 0xA2 va vc >>= fun y => alu 0xA0 x y)

/-- No step of the assembled core records UnsupportedALUOperation (41_alu.md, "The ALU block"; marked [derived] there). -/
def Obligations.CoreNeverRaisesUnsupportedAlu : Prop :=
  ∀ s t : State, step s = .next t → t.fault.cause = .unsupportedALUOperation →
    s.fault.cause = .unsupportedALUOperation

/-! ### PUSH, POP -/

/-- PUSH,a (42_stack.md, PUSH; the wrap of register 7 is the spec's decision D10, the value for `a = 7` its decision D11):
register 7 goes down by one modulo 256 and `x[a]`, read after that, is stored where it then points. -/
def Obligations.PushStoresRegister : Prop :=
  (∀ (a : Byte) (s : State) (h : a.toNat < 8), s.pc.toNat ≤ 254 →
    ∃ t, exec (.push a) s = .next t ∧
      t.regs = s.regs.set 7 (s.reg 7 - 1) ∧ t.pc = s.pc + 2 ∧
      t.mem.read (s.reg 7 - 1).toNat = (if a = 7 then s.reg 7 - 1 else s.reg ⟨a.toNat, h⟩) ∧
      (∀ addr, addr ≠ (s.reg 7 - 1).toNat → t.mem.read addr = s.mem.read addr) ∧
      t.halted = s.halted ∧ t.status = s.status ∧ t.fault = s.fault ∧ t.out = s.out) ∧
  (∀ (a : Byte) (s : State), 8 ≤ a.toNat →
    exec (.push a) s = .next (s.afterFault .registerIndexOutOfRange (a.setWidth 9))) ∧
  (∀ s : State, s.status = .running → s.mem.read s.pc.toNat = 0x45#8 →
    (s.pc = 255 → step s = .next (s.afterFault .addressOutOfRange 256)) ∧
    (s.pc.toNat ≤ 254 → step s = exec (.push (s.mem.read (s.pc.toNat + 1))) s))

/-- POP,a (42_stack.md, POP; the wrap of register 7 is the spec's decision D10, the value for `a = 7` its decision D11):
`x[a]` becomes the byte register 7 points at, then register 7 goes up by one modulo 256. -/
def Obligations.PopLoadsRegister : Prop :=
  (∀ (a : Byte) (s : State) (h : a.toNat < 8), a ≠ 7 → s.pc.toNat ≤ 254 →
    exec (.pop a) s = .next { s with
      regs := (s.regs.set a.toNat (s.mem.read (s.reg 7).toNat) h).set 7 (s.reg 7 + 1), pc := s.pc + 2 }) ∧
  (∀ s : State, s.pc.toNat ≤ 254 → exec (.pop 7) s = .next { s with
      regs := s.regs.set 7 (s.mem.read (s.reg 7).toNat + 1), pc := s.pc + 2 }) ∧
  (∀ (a : Byte) (s : State), 8 ≤ a.toNat →
    exec (.pop a) s = .next (s.afterFault .registerIndexOutOfRange (a.setWidth 9))) ∧
  (∀ s : State, s.status = .running → s.mem.read s.pc.toNat = 0x46#8 →
    (s.pc = 255 → step s = .next (s.afterFault .addressOutOfRange 256)) ∧
    (s.pc.toNat ≤ 254 → step s = exec (.pop (s.mem.read (s.pc.toNat + 1))) s))

/-- PUSH and then POP of the same register restores every register, register 7 included, for all eight indices
(42_stack.md, "Stack laws"; marked [derived] there). -/
def Obligations.PushThenPopRestores : Prop :=
  ∀ (a : Byte) (s : State), a.toNat < 8 →
    ∃ t u, exec (.push a) s = .next t ∧ exec (.pop a) t = .next u ∧ u.regs = s.regs ∧
      ∀ addr, addr ≠ (s.reg 7 - 1).toNat → u.mem.read addr = s.mem.read addr

/-! ### CALL, RET -/

/-- CALL,a (43_call_return.md, CALL; the spec's decisions D8 for a return address of 256, D10 and D11): the return address
`pc + 2` is pushed and the pc becomes `x[a]`, read after the decrement of register 7. -/
def Obligations.CallPushesReturnAddress : Prop :=
  (∀ (a : Byte) (s : State) (h : a.toNat < 8), s.pc.toNat ≤ 253 →
    ∃ t, exec (.call a) s = .next t ∧
      t.pc = (if a = 7 then s.reg 7 - 1 else s.reg ⟨a.toNat, h⟩).setWidth 9 ∧
      t.regs = s.regs.set 7 (s.reg 7 - 1) ∧
      t.mem.read (s.reg 7 - 1).toNat = BitVec.ofNat 8 (s.pc.toNat + 2) ∧
      (∀ addr, addr ≠ (s.reg 7 - 1).toNat → t.mem.read addr = s.mem.read addr) ∧
      t.halted = s.halted ∧ t.status = s.status ∧ t.fault = s.fault ∧ t.out = s.out) ∧
  (∀ (a : Byte) (s : State), 8 ≤ a.toNat →
    exec (.call a) s = .next (s.afterFault .registerIndexOutOfRange (a.setWidth 9))) ∧
  (∀ s : State, s.status = .running → s.mem.read s.pc.toNat = 0x50#8 →
    (s.pc = 255 → step s = .next (s.afterFault .addressOutOfRange 256)) ∧
    (s.pc = 254 → (s.mem.read 255).toNat < 8 → step s = .next (s.afterFault .addressOutOfRange 256)) ∧
    (s.pc.toNat ≤ 254 → step s = exec (.call (s.mem.read (s.pc.toNat + 1))) s))

/-- RET (R161): the pc becomes the byte register 7 points at, register 7 goes up by one modulo 256, nothing else changes, at
every address up to 255. -/
def Obligations.RetPopsProgramCounter : Prop :=
  (∀ s : State, exec .ret s = .next { s with
      pc := (s.mem.read (s.reg 7).toNat).setWidth 9, regs := s.regs.set 7 (s.reg 7 + 1) }) ∧
  (∀ s : State, s.status = .running → s.pc.toNat ≤ 255 → s.mem.read s.pc.toNat = 0x11#8 →
    step s = .next { s with
      pc := (s.mem.read (s.reg 7).toNat).setWidth 9, regs := s.regs.set 7 (s.reg 7 + 1) })

/-- CALL and then, with register 7 and the pushed cell as CALL left them, RET: execution resumes after the CALL and its
operand, and register 7 is back (43_call_return.md, "Call and return laws"; marked [derived] there). -/
def Obligations.CallThenRetResumes : Prop :=
  ∀ (a : Byte) (s : State), a.toNat < 8 → s.pc.toNat ≤ 253 →
    ∃ t, exec (.call a) s = .next t ∧
      ∀ u : State, u.reg 7 = t.reg 7 → u.mem.read (u.reg 7).toNat = t.mem.read (t.reg 7).toNat →
        ∃ v, exec .ret u = .next v ∧ v.pc.toNat = s.pc.toNat + 2 ∧ v.reg 7 = s.reg 7

/-! ### Who changes what -/

/-- The pc after each instruction and after a fault (R27), the additions exact: the instruction's bytes lie in memory, so no
sum passes 256. -/
def Obligations.ProgramCounterChanges : Prop :=
  (∀ (i : Instr) (s : State), i.wellFormed = true → i.kind ∈ [.ldi, .add, .mul] → s.pc.toNat ≤ 253 →
    ∃ t, exec i s = .next t ∧ t.pc.toNat = s.pc.toNat + 3) ∧
  (∀ (i : Instr) (s : State), i.wellFormed = true → i.kind ∈ [.prn, .push, .pop] → s.pc.toNat ≤ 254 →
    ∃ t, exec i s = .next t ∧ t.pc.toNat = s.pc.toNat + 2) ∧
  (∀ s : State, ∃ t, exec .hlt s = .next t ∧ t.pc = s.pc) ∧
  (∀ (a : Byte) (s : State) (h : a.toNat < 8), s.pc.toNat ≤ 253 →
    ∃ t, exec (.call a) s = .next t ∧ t.pc.toNat = ((s.setReg 7 (s.reg 7 - 1)).reg ⟨a.toNat, h⟩).toNat) ∧
  (∀ s : State, ∃ t, exec .ret s = .next t ∧ t.pc.toNat = (s.mem.read (s.reg 7).toNat).toNat) ∧
  (∀ s t : State, s.status = .running → step s = .next t → t.status = .faulted → t.pc = s.pc)

/-- No instruction writes a register it is not listed as writing, and none reads one it is not listed as reading: such a
register can hold anything, and the result is the same but for that register itself (the table of R24). -/
def Obligations.RegistersUsedAsListed : Prop :=
  (∀ (i : Instr) (s t : State) (r : RegIdx), exec i s = .next t → ¬ i.writesReg r → t.reg r = s.reg r) ∧
  (∀ (i : Instr) (s : State) (r : RegIdx) (v : Byte), ¬ i.readsReg r → i.writesReg r →
    exec i (s.setReg r v) = exec i s) ∧
  (∀ (i : Instr) (s : State) (r : RegIdx) (v : Byte), ¬ i.readsReg r → ¬ i.writesReg r →
    ∃ t, exec i s = .next t ∧ exec i (s.setReg r v) = .next (t.setReg r v))

/-- The frame of LDI, ADD and MUL: every register but `x[a]`, every byte of memory, the halted flag and the output stream are
unchanged; status and fault change only by the raise of a bad index, for LDI only `a`, for ADD and MUL `a` and then `b`
(10_state.md section 2, 30_encoding.md section 5; the raise is the spec's decision D6). -/
def Obligations.RegisterInstructionFrame : Prop :=
  (∀ (a b : Byte) (s t : State),
    exec (.ldi a b) s = .next t ∨ exec (.add a b) s = .next t ∨ exec (.mul a b) s = .next t →
    (∀ r : RegIdx, r.val ≠ a.toNat → t.reg r = s.reg r) ∧
    (∀ addr, t.mem.read addr = s.mem.read addr) ∧ t.halted = s.halted ∧ t.out = s.out) ∧
  (∀ (a b : Byte) (s t : State), exec (.ldi a b) s = .next t →
    (t.status = s.status ∧ t.fault = s.fault ∨
      8 ≤ a.toNat ∧ t = s.afterFault .registerIndexOutOfRange (a.setWidth 9))) ∧
  (∀ (a b : Byte) (s t : State), exec (.add a b) s = .next t ∨ exec (.mul a b) s = .next t →
    (t.status = s.status ∧ t.fault = s.fault ∨
      8 ≤ a.toNat ∧ t = s.afterFault .registerIndexOutOfRange (a.setWidth 9) ∨
      a.toNat < 8 ∧ 8 ≤ b.toNat ∧ t = s.afterFault .registerIndexOutOfRange (b.setWidth 9)))

/-- The frame of PRN and HLT: every register, every byte of memory; PRN changes the output stream and the pc only, or raises;
HLT changes the halted flag and the status only (10_state.md section 2, 30_encoding.md section 5). -/
def Obligations.OutputAndHaltFrame : Prop :=
  (∀ (a : Byte) (s t : State), exec (.prn a) s = .next t →
    (∀ r : RegIdx, t.reg r = s.reg r) ∧ (∀ addr, t.mem.read addr = s.mem.read addr) ∧ t.halted = s.halted ∧
    (t.status = s.status ∧ t.fault = s.fault ∨
      8 ≤ a.toNat ∧ t = s.afterFault .registerIndexOutOfRange (a.setWidth 9))) ∧
  (∀ s t : State, exec .hlt s = .next t →
    (∀ r : RegIdx, t.reg r = s.reg r) ∧ (∀ addr, t.mem.read addr = s.mem.read addr) ∧
    t.pc = s.pc ∧ t.fault = s.fault ∧ t.out = s.out)

/-- The frame of PUSH and CALL: they store one byte, at the address `x[7] - 1` modulo 256 as it was before; every other byte
of memory, every register but register 7, the halted flag and the output stream are unchanged; status and fault change only
by a raise, which changes nothing else (20_memory.md section 4, 10_state.md section 2). -/
def Obligations.StackStoreFrame : Prop :=
  ∀ (a : Byte) (s t : State), exec (.push a) s = .next t ∨ exec (.call a) s = .next t →
    (∀ addr, addr ≠ (s.stackPointer - 1).toNat → t.mem.read addr = s.mem.read addr) ∧
    (∀ r : RegIdx, r.val ≠ 7 → t.reg r = s.reg r) ∧ t.halted = s.halted ∧ t.out = s.out ∧
    (t.status = s.status ∧ t.fault = s.fault ∨ t = s.afterFault t.fault.cause t.fault.info)

/-- The frame of POP and RET: every byte of memory, every register but the destination and register 7, the halted flag and
the output stream are unchanged; POP's status and fault change only by the raise of a bad index (20_memory.md section 4,
10_state.md section 2). -/
def Obligations.StackLoadFrame : Prop :=
  (∀ (a : Byte) (s t : State), exec (.pop a) s = .next t →
    (∀ addr, t.mem.read addr = s.mem.read addr) ∧
    (∀ r : RegIdx, r.val ≠ 7 → r.val ≠ a.toNat → t.reg r = s.reg r) ∧ t.halted = s.halted ∧ t.out = s.out ∧
    (t.status = s.status ∧ t.fault = s.fault ∨
      8 ≤ a.toNat ∧ t = s.afterFault .registerIndexOutOfRange (a.setWidth 9))) ∧
  (∀ s t : State, exec .ret s = .next t →
    (∀ addr, t.mem.read addr = s.mem.read addr) ∧ (∀ r : RegIdx, r.val ≠ 7 → t.reg r = s.reg r) ∧
    t.halted = s.halted ∧ t.out = s.out ∧ t.status = s.status ∧ t.fault = s.fault)

/-- What an instruction reads of data memory (20_memory.md section 4): LDI, PRN, HLT, ADD, MUL, PUSH and CALL nothing, POP and
RET only the cell register 7 points at. Two memories that agree there give results that agree in everything but memory. -/
def Obligations.DataMemoryReadsAsListed : Prop :=
  ∀ (i : Instr) (s : State) (m : Memory),
    (i.kind ∈ [.pop, .ret] → m.read (s.reg 7).toNat = s.mem.read (s.reg 7).toNat) →
    ∃ t u, exec i s = .next t ∧ exec i { s with mem := m } = .next u ∧ { u with mem := t.mem } = t

/-- The halted flag is false after reset, only HLT makes it true, nothing a step does makes it false, and a fault does not set
it; a core it was set in has ended its run (R30). -/
def Obligations.HaltedFlagOnlyByHlt : Prop :=
  State.reset.halted = false ∧
  (∀ s t : State, step s = .next t → s.halted = true → t.halted = true) ∧
  (∀ s t : State, step s = .next t → s.halted = false → t.halted = true →
    s.status = .running ∧ s.pc.toNat ≤ 255 ∧ s.mem.read s.pc.toNat = 0x01#8) ∧
  (∀ s t : State, step s = .next t → s.status = .running → t.status = .faulted → t.halted = s.halted) ∧
  (∀ (s : State) (n : Nat), s.Inv → s.halted = true → Host.Core.run Sys2Proof.core n s = .next s)

/-- The transitions of the status: running to halted by HLT only, running to faulted by a raise, none out of halted or faulted
(10_state.md section 4; the third state is the spec's decision D3). -/
def Obligations.StatusTransitions : Prop :=
  ∀ s t : State, step s = .next t →
    (t.status = s.status ∨
     (s.status = .running ∧ t.status = .halted ∧ s.mem.read s.pc.toNat = 0x01#8) ∨
     (s.status = .running ∧ t.status = .faulted ∧ s.firstFault ≠ none)) ∧
    (s.status ≠ .running → t = s)

/-- A fault entry writes the record and the status, all of the record together and with the pc of the faulting instruction,
and nothing else; no other step changes the record (60_exceptions.md section 4; the spec's decision D3). -/
def Obligations.FaultEntryIsPrecise : Prop :=
  ∀ s t : State, step s = .next t →
    (s.status = .running → t.status = .faulted → t = s.afterFault t.fault.cause t.fault.info ∧ t.fault.cause ≠ .noFault) ∧
    (t.status = .faulted → s.status = .faulted → t.fault = s.fault) ∧
    (t.status ≠ .faulted → t.fault = s.fault)

/-- The codes of the causes on the diagnostic port (60_exceptions.md section 1; the spec's decision D4). -/
def Obligations.DiagnosticPortShowsRecord : Prop :=
  ∀ (s : State) (info : PcWord),
    (State.reset.diagnosticPort = ⟨false, .running, 0, 0, 0⟩) ∧
    ((s.afterFault .unknownInstruction info).diagnosticPort = ⟨s.halted, .faulted, 1, s.pc, info⟩) ∧
    ((s.afterFault .unsupportedALUOperation info).diagnosticPort = ⟨s.halted, .faulted, 2, s.pc, info⟩) ∧
    ((s.afterFault .registerIndexOutOfRange info).diagnosticPort = ⟨s.halted, .faulted, 3, s.pc, info⟩) ∧
    ((s.afterFault .addressOutOfRange info).diagnosticPort = ⟨s.halted, .faulted, 4, s.pc, info⟩)

/-- The trace shows the pc, the registers and the next three memory bytes, a byte above address 255 as absent
(60_exceptions.md section 7; the spec's decision D21). -/
def Obligations.TracePortShowsState : Prop :=
  ∀ (s : State) (k : Nat), k < 3 →
    s.tracePort.pc = s.pc ∧ s.tracePort.regs = s.regs ∧ s.tracePort.bytes.length = 3 ∧
    (s.pc.toNat + k ≤ 255 → s.tracePort.bytes[k]? = some (some (s.mem.read (s.pc.toNat + k)))) ∧
    (255 < s.pc.toNat + k → s.tracePort.bytes[k]? = some none)

/-- A step presents one item on the output port where it executes PRN with a register index, that register's value, and none
anywhere else; the stream is only ever extended (40_load_output_halt.md, PRN; 10_state.md section 6). -/
def Obligations.OutputOnlyByPrn : Prop :=
  ∀ s t : State, step s = .next t →
    t.out = s.out ++ stepOutput s ∧
    (stepOutput s = [] ∨
      s.status = .running ∧ s.mem.read s.pc.toNat = 0x47#8 ∧
        ∃ h : (s.mem.read (s.pc.toNat + 1)).toNat < 8,
          stepOutput s = [s.reg ⟨(s.mem.read (s.pc.toNat + 1)).toNat, h⟩])

/-! ### Memory -/

/-- The two primitives (R61): a write changes exactly one cell and nothing else of the state, a read returns the last value
written, or zero if none was written since reset, and a read within range is only a value. -/
def Obligations.MemoryCellsHoldWrites : Prop :=
  (∀ (s : State) (addr : Nat) (v : Byte), addr < 256 →
    ∃ t, s.memWrite addr v = .ok t ∧ t.memRead addr = .ok v ∧
      (∀ other, other ≠ addr → t.memRead other = s.memRead other) ∧ { t with mem := s.mem } = s) ∧
  (∀ addr < 256, State.reset.memRead addr = .ok 0x00#8) ∧
  (∀ (s : State) (addr : Nat), addr < 256 → ∃ v, s.memRead addr = .ok v)

/-- An access above 255 raises AddressOutOfRange with the address and touches no cell; no address wraps (20_memory.md section
3; the spec's decision D1). -/
def Obligations.OutOfRangeAccessRaises : Prop :=
  ∀ (s : State) (addr : Nat) (v : Byte), 255 < addr →
    s.memRead addr = .error (.addressOutOfRange addr) ∧ s.memWrite addr v = .error (.addressOutOfRange addr)

/-- Two memories in canonical form that read alike at every address are the same data: the 256 cells are all a memory holds
(20_memory.md section 1; the canonical form is the model's own). -/
def Obligations.MemoryIsItsCells : Prop :=
  ∀ m m' : Memory, m.wf → m'.wf → (∀ addr < 256, m.read addr = m'.read addr) → m = m'

/-- A byte stored by PUSH or CALL at the address the pc then holds is the opcode byte the very next fetch reads (20_memory.md
section 6; marked [derived] there). -/
def Obligations.StoreSeenByNextFetch : Prop :=
  ∀ (a : Byte) (s : State) (h : a.toNat < 8), s.pc.toNat ≤ 253 →
    (∃ t, exec (.push a) s = .next t ∧ (t.pc.toNat = (s.reg 7 - 1).toNat →
      t.fetchBytes.head? = some ((s.setReg 7 (s.reg 7 - 1)).reg ⟨a.toNat, h⟩))) ∧
    (∃ t, exec (.call a) s = .next t ∧ (t.pc.toNat = (s.reg 7 - 1).toNat →
      t.fetchBytes.head? = some (BitVec.ofNat 8 (s.pc.toNat + 2))))

/-! ### Reset, invariant, run, host -/

/-- What reset leaves (10_state.md section 8; registers 0 to 6 are the spec's decision D12, the fault record its D3). -/
def Obligations.ResetState : Prop :=
  State.reset.regs.toList = [0x00#8, 0x00#8, 0x00#8, 0x00#8, 0x00#8, 0x00#8, 0x00#8, 0xF4#8] ∧
  State.reset.pc = 0 ∧ State.reset.halted = false ∧ State.reset.status = .running ∧
  State.reset.fault = ⟨.noFault, 0, 0⟩ ∧ State.reset.out = [] ∧ ∀ addr, State.reset.mem.read addr = 0x00#8

/-- Every step keeps the invariant: canonical memory inside 0 to 255, pc at most 256, the halted flag true exactly when the
status is halted, and a fault record that fits the status and the faulting instruction (10_state.md sections 1, 3 and 4,
60_exceptions.md sections 1 and 4; the pc's range is marked [derived], the record is decision D3). -/
def Obligations.StepKeepsInvariant : Prop :=
  ∀ s t : State, s.Inv → step s = .next t → t.Inv

/-- The invariant holds after reset (10_state.md section 8). -/
def Obligations.ResetMeetsInvariant : Prop := State.reset.Inv

/-- A run bounded to `n` steps ends in the same state as `n` step requests (70_reset_and_hazards.md section 2; that a run ends
when the status is faulted is the spec's decision D23). -/
def Obligations.RunEqualsSteps : Prop :=
  ∀ (n : Nat) (s : State), runWhile n s = Host.Core.run Sys2Proof.core n s

/-- A run that has stopped has ended HALTED or FAULTED, not both, and stays so for every longer run (70_reset_and_hazards.md
section 3; marked [derived] there). -/
def Obligations.RunEndsOneWay : Prop :=
  ∀ (s t : State) (n m : Nat), s.Inv → n ≤ m → Host.Core.run Sys2Proof.core n s = .next t → t.status ≠ .running →
    Host.Core.run Sys2Proof.core m s = .next t ∧
    (t.EndedHalted ∨ t.EndedFaulted) ∧ ¬ (t.EndedHalted ∧ t.EndedFaulted)

/-- The loader fails exactly for a value above 255 or a 257th value; else the memory is the values from address 0 up and zero
above (70_reset_and_hazards.md section 2; the spec's decisions D20 and D24). -/
def Obligations.LoaderBuildsImage : Prop :=
  ∀ lines : List (List Char),
    let values := lines.filterMap parseLine
    (∀ m, loadLines lines 0 State.reset.mem = .ok m →
      (∀ v ∈ values, v ≤ 255) ∧ values.length ≤ 256 ∧
      m.wf ∧ ∀ addr, m.read addr = BitVec.ofNat 8 (values.getD addr 0)) ∧
    ((∀ v ∈ values, v ≤ 255) → values.length ≤ 256 → ∃ m, loadLines lines 0 State.reset.mem = .ok m)

/-- A source that cannot be read is reported and starts nothing, and the cells the loader wrote, each formatted as an 8-bit
literal and read again, give back the values of the significant lines exactly (70_reset_and_hazards.md section 2; what is
whitespace and ends a line: log entry 4). -/
def Obligations.LoaderRoundTrip : Prop :=
  boot none = .error .sourceUnavailable ∧
  ∀ (text : List Char) (s : State), boot (some text) = .ok s →
    (List.range ((splitLines text).filterMap parseLine).length).map
        (fun addr => parseLine (formatBinary (s.mem.read addr))) =
      ((splitLines text).filterMap parseLine).map some

/-- After reset and a load that succeeds every launch premise of the state holds (70_reset_and_hazards.md section 6; marked
[derived] there; registers 0 to 6 are the spec's decision D12). L_HOST_QUIET is a premise about the host and is left out (log
entry 6); the image is read from the text as `splitLines` and `parseLine` read it, and what is whitespace and ends a line is
the model's choice (log entry 4). -/
def Obligations.BootMeetsLaunchPremises : Prop :=
  ∀ (text : List Char) (s : State), boot (some text) = .ok s →
    s.Launch (((splitLines text).filterMap parseLine).map (BitVec.ofNat 8)) ∧ s.Inv
end

