-- ==== Sys2Proof/Laws/Decode.lean ====
section
/-! SUPPORT. What the decoder's parts can answer, and what well-formedness says. -/

namespace Sys2Proof

/-- The decoder names a kind exactly for that kind's opcode byte (R98). -/
theorem decodeOpcode_some {ir : Byte} {k : Kind} (h : decodeOpcode ir = some k) : ir = k.opcode := by
  have := List.find?_some h
  exact (beq_iff_eq.mp this).symm

theorem decodeOpcode_opcode (k : Kind) : decodeOpcode k.opcode = some k := by
  cases k <;> decide

/-- The operand count in bits 7:6 of each opcode (R95, R101). -/
theorem operandCount_opcode (k : Kind) :
    operandCount k.opcode = match k with
      | .ldi | .add | .mul => 2
      | .prn | .push | .pop | .call => 1
      | .hlt | .ret => 0 := by
  cases k <;> decide

/-- The operand count of an instruction's opcode is how many operand bytes it has (R92, R93). -/
theorem operandCount_kind (i : Instr) : operandCount i.kind.opcode = i.operands.length := by
  cases i <;> simp [Instr.kind, Instr.operands, operandCount_opcode]

/-- Well-formed says that every register operand is 0 to 7 (R103). -/
theorem Instr.wellFormed_iff (i : Instr) :
    i.wellFormed = true ↔ ∀ operand ∈ i.registerOperands, operand.toNat < 8 := by
  simp [Instr.wellFormed, namesRegister, Config.nregs]

/-- What is checked as a register index is an operand of the instruction (R94). -/
theorem Instr.registerOperands_subset (i : Instr) : i.registerOperands ⊆ i.operands := by
  cases i <;> simp [Instr.registerOperands, Instr.operands]

end Sys2Proof
end

