-- ==== Sys2Proof/Laws/Loader.lean ====
section
/-! SUPPORT. The loader keeps the memory's canonical form, and a boot that succeeds is a load from reset. -/

namespace Sys2Proof.Machine

theorem loadLines_wf {lines : List (List Char)} {addr : Nat} {m m' : Memory} (h : m.wf)
    (hl : loadLines lines addr m = .ok m') : m'.wf := by
  induction lines generalizing addr m with
  | nil =>
    injection hl with hl
    exact hl ▸ h
  | cons line rest ih =>
    unfold loadLines at hl
    split at hl
    · exact ih h hl
    · split_ifs at hl with hv ha
      exact ih (Memory.write_wf h _ (by simp only [Config.memSize]; omega)) hl

/-- A boot that succeeds is reset with the loaded memory (R222). -/
theorem boot_ok {source : Option (List Char)} {s : State} (h : boot source = .ok s) :
    ∃ text m, source = some text ∧ loadLines (splitLines text) 0 State.reset.mem = .ok m ∧
      s = { State.reset with mem := m } := by
  unfold boot at h
  split at h
  · cases h
  · split at h
    · injection h with h
      exact ⟨_, _, rfl, by assumption, h.symm⟩
    · cases h

end Sys2Proof.Machine
end

