-- ==== Sys2Proof/Laws/State.lean ====
section
/-! SUPPORT. What each update of the state does to each field, true by unfolding once, and the register file's
read-after-write laws. -/

namespace Sys2Proof.Machine

variable (s : State) (r : RegIdx) (v : Byte) (e : Raise) (k : Kind)

@[simp] theorem State.setReg_pc : (s.setReg r v).pc = s.pc := rfl
@[simp] theorem State.setReg_halted : (s.setReg r v).halted = s.halted := rfl
@[simp] theorem State.setReg_mem : (s.setReg r v).mem = s.mem := rfl
@[simp] theorem State.setReg_status : (s.setReg r v).status = s.status := rfl
@[simp] theorem State.setReg_fault : (s.setReg r v).fault = s.fault := rfl
@[simp] theorem State.setReg_out : (s.setReg r v).out = s.out := rfl

@[simp] theorem State.raise_regs : (s.raise e).regs = s.regs := rfl
@[simp] theorem State.raise_reg : (s.raise e).reg r = s.reg r := rfl
@[simp] theorem State.raise_pc : (s.raise e).pc = s.pc := rfl
@[simp] theorem State.raise_halted : (s.raise e).halted = s.halted := rfl
@[simp] theorem State.raise_mem : (s.raise e).mem = s.mem := rfl
@[simp] theorem State.raise_status : (s.raise e).status = .faulted := rfl
@[simp] theorem State.raise_fault : (s.raise e).fault = ⟨e.cause, s.pc, e.info⟩ := rfl
@[simp] theorem State.raise_out : (s.raise e).out = s.out := rfl

@[simp] theorem State.advance_regs : (s.advance k).regs = s.regs := rfl
@[simp] theorem State.advance_reg : (s.advance k).reg r = s.reg r := rfl
@[simp] theorem State.advance_pc :
    (s.advance k).pc = s.pc + BitVec.ofNat 9 (operandCount k.opcode + 1) := rfl
@[simp] theorem State.advance_halted : (s.advance k).halted = s.halted := rfl
@[simp] theorem State.advance_mem : (s.advance k).mem = s.mem := rfl
@[simp] theorem State.advance_status : (s.advance k).status = s.status := rfl
@[simp] theorem State.advance_fault : (s.advance k).fault = s.fault := rfl
@[simp] theorem State.advance_out : (s.advance k).out = s.out := rfl

@[simp] theorem State.jump_regs : (s.jump v).regs = s.regs := rfl
@[simp] theorem State.jump_reg : (s.jump v).reg r = s.reg r := rfl
@[simp] theorem State.jump_pc : (s.jump v).pc = v.setWidth 9 := rfl
@[simp] theorem State.jump_halted : (s.jump v).halted = s.halted := rfl
@[simp] theorem State.jump_mem : (s.jump v).mem = s.mem := rfl
@[simp] theorem State.jump_status : (s.jump v).status = s.status := rfl
@[simp] theorem State.jump_fault : (s.jump v).fault = s.fault := rfl
@[simp] theorem State.jump_out : (s.jump v).out = s.out := rfl

@[simp] theorem State.emit_regs : (s.emit v).regs = s.regs := rfl
@[simp] theorem State.emit_reg : (s.emit v).reg r = s.reg r := rfl
@[simp] theorem State.emit_pc : (s.emit v).pc = s.pc := rfl
@[simp] theorem State.emit_halted : (s.emit v).halted = s.halted := rfl
@[simp] theorem State.emit_mem : (s.emit v).mem = s.mem := rfl
@[simp] theorem State.emit_status : (s.emit v).status = s.status := rfl
@[simp] theorem State.emit_fault : (s.emit v).fault = s.fault := rfl
@[simp] theorem State.emit_out : (s.emit v).out = s.out ++ [v] := rfl

@[simp] theorem State.halt_regs : s.halt.regs = s.regs := rfl
@[simp] theorem State.halt_reg : s.halt.reg r = s.reg r := rfl
@[simp] theorem State.halt_pc : s.halt.pc = s.pc := rfl
@[simp] theorem State.halt_halted : s.halt.halted = true := rfl
@[simp] theorem State.halt_mem : s.halt.mem = s.mem := rfl
@[simp] theorem State.halt_status : s.halt.status = .halted := rfl
@[simp] theorem State.halt_fault : s.halt.fault = s.fault := rfl
@[simp] theorem State.halt_out : s.halt.out = s.out := rfl

@[simp] theorem State.dropTop_pc : s.dropTop.pc = s.pc := rfl
@[simp] theorem State.dropTop_halted : s.dropTop.halted = s.halted := rfl
@[simp] theorem State.dropTop_mem : s.dropTop.mem = s.mem := rfl
@[simp] theorem State.dropTop_status : s.dropTop.status = s.status := rfl
@[simp] theorem State.dropTop_fault : s.dropTop.fault = s.fault := rfl
@[simp] theorem State.dropTop_out : s.dropTop.out = s.out := rfl

/-- A register reads back the value written to it (R21). -/
@[simp] theorem State.reg_setReg_self : (s.setReg r v).reg r = v := by
  simp [State.reg, State.setReg]

/-- A write of one register leaves every other alone (R21). -/
theorem State.reg_setReg_ne {r' : RegIdx} (h : r ≠ r') : (s.setReg r v).reg r' = s.reg r' := by
  have : r.val ≠ r'.val := fun e => h (Fin.ext e)
  simp [State.reg, State.setReg, Vector.getElem_set_ne, this]

end Sys2Proof.Machine
end

