-- ==== Sys2Proof/Laws/Ops.lean ====
section
/-! SUPPORT. One lemma for each shared operation that says everything it can do, to be cited instead of unfolding it. -/

namespace Sys2Proof.Machine

@[simp] theorem State.commit_ok (s t : State) : s.commit (.ok t) = .next t := rfl
@[simp] theorem State.commit_error (s : State) (e : Raise) : s.commit (.error e) = .next (s.raise e) := rfl

/-- An instruction ends in its result, or in its raise taken in the state it began in; it always answers a next state. -/
theorem State.commit_cases (s : State) (r : Except Raise State) :
    (∃ t, r = .ok t ∧ s.commit r = .next t) ∨ (∃ e, r = .error e ∧ s.commit r = .next (s.raise e)) := by
  cases r with
  | ok t => exact .inl ⟨t, rfl, rfl⟩
  | error e => exact .inr ⟨e, rfl, rfl⟩

/-- A bind succeeds exactly where both of its parts do. -/
theorem except_bind_ok {α β : Type} {x : Except Raise α} {f : α → Except Raise β} {b : β} :
    (x >>= f) = .ok b ↔ ∃ a, x = .ok a ∧ f a = .ok b := by
  cases x <;> simp [bind, Except.bind]

/-- A bind fails with the failure of its first part, or of the second after it. -/
theorem except_bind_error {α β : Type} {x : Except Raise α} {f : α → Except Raise β} {e : Raise} :
    (x >>= f) = .error e ↔ x = .error e ∨ ∃ a, x = .ok a ∧ f a = .error e := by
  cases x <;> simp [bind, Except.bind]

theorem regIndex_of_lt {a : Byte} (h : a.toNat < 8) : regIndex a = .ok ⟨a.toNat, h⟩ := dif_pos h
theorem regIndex_of_ge {a : Byte} (h : 8 ≤ a.toNat) : regIndex a = .error (.registerIndexOutOfRange a) :=
  dif_neg (Nat.not_lt.mpr h)

/-- A register-index operand names its register, or raises (R103). -/
theorem regIndex_cases (a : Byte) :
    (∃ h : a.toNat < 8, regIndex a = .ok ⟨a.toNat, h⟩) ∨
    (8 ≤ a.toNat ∧ regIndex a = .error (.registerIndexOutOfRange a)) := by
  rcases Nat.lt_or_ge a.toNat 8 with h | h
  · exact .inl ⟨h, regIndex_of_lt h⟩
  · exact .inr ⟨h, regIndex_of_ge h⟩

theorem State.memRead_of_lt (s : State) {addr : Nat} (h : addr < 256) : s.memRead addr = .ok (s.mem.read addr) :=
  if_pos h
theorem State.memRead_of_ge (s : State) {addr : Nat} (h : 256 ≤ addr) :
    s.memRead addr = .error (.addressOutOfRange addr) := if_neg (Nat.not_lt.mpr (by simpa [Config.memSize] using h))
theorem State.memWrite_of_lt (s : State) {addr : Nat} (v : Byte) (h : addr < 256) :
    s.memWrite addr v = .ok { s with mem := s.mem.write addr v } := if_pos h
theorem State.memWrite_of_ge (s : State) {addr : Nat} (v : Byte) (h : 256 ≤ addr) :
    s.memWrite addr v = .error (.addressOutOfRange addr) := if_neg (Nat.not_lt.mpr (by simpa [Config.memSize] using h))

/-- A stack read never raises: its address is a register's byte (R66). -/
theorem State.stackTop_eq (s : State) : s.stackTop = .ok (s.mem.read (s.reg 7).toNat) :=
  s.memRead_of_lt (s.reg 7).isLt

/-- A push never raises: it decrements register 7 and stores at the new address (R66, R150, R160). -/
theorem State.pushByte_eq (s : State) (value : State → Byte) :
    s.pushByte value = .ok { s.setReg 7 (s.reg 7 - 1) with
      mem := s.mem.write (s.reg 7 - 1).toNat (value (s.setReg 7 (s.reg 7 - 1))) } := by
  have h : (s.setReg 7 (s.reg 7 - 1)).reg 7 = s.reg 7 - 1 := State.reg_setReg_self ..
  unfold State.pushByte State.stackPointer
  simp only [Config.sp, h]
  exact State.memWrite_of_lt _ _ (s.reg 7 - 1).isLt

theorem returnAddress_of_le {pc : PcWord} (h : pc.toNat ≤ 253) :
    returnAddress pc = .ok (BitVec.ofNat 8 (pc.toNat + 2)) := if_pos (by simp [Config.memSize]; omega)
theorem returnAddress_of_gt {pc : PcWord} (h : 253 < pc.toNat) :
    returnAddress pc = .error (.addressOutOfRange (pc.toNat + 2)) := if_neg (by simp [Config.memSize]; omega)

/-- The ALU's ADD is the sum modulo 256 (R142). -/
theorem alu_add (va vb : Byte) : alu Kind.add.opcode va vb = .ok (va + vb) := by
  simp only [alu, Kind.opcode, if_true]
  congr 1
  apply BitVec.eq_of_toNat_eq
  simp

/-- The ALU's MUL is the product modulo 256 (R142). -/
theorem alu_mul (va vb : Byte) : alu Kind.mul.opcode va vb = .ok (va * vb) := by
  have h : Kind.mul.opcode ≠ 0xA0#8 := by decide
  rw [alu, if_neg h, if_pos (by decide)]
  congr 1
  apply BitVec.eq_of_toNat_eq
  simp

end Sys2Proof.Machine
end

