-- ==== Sys2Proof/Laws/PerInstr.lean ====
section
/-! SUPPORT. Statements for all instructions, made per instruction. -/

namespace Sys2Proof.Laws.EncodeLength

/-- An instruction's encoding is its opcode byte and then as many operand bytes as bits 7:6 of the opcode say, so that
its length is `ir[7:6] + 1`, 1 to 3 bytes (R90, R93). -/
def Statement (i : Instr) : Prop :=
  (encode i).length = operandCount i.kind.opcode + 1 ∧ 1 ≤ (encode i).length ∧ (encode i).length ≤ 3

/-- The one argument behind every case: an encoding is the opcode byte and the operand bytes. -/
theorem of_operands (i : Instr) (h : i.operands.length ≤ 2) : Statement i := by
  have hl : (encode i).length = i.operands.length + 1 := rfl
  exact ⟨by rw [hl, operandCount_kind], by omega, by omega⟩

theorem ldi (a b : Byte) : Statement (.ldi a b) := of_operands _ (by simp [Instr.operands])
theorem prn (a : Byte) : Statement (.prn a) := of_operands _ (by simp [Instr.operands])
theorem hlt : Statement .hlt := of_operands _ (by simp [Instr.operands])
theorem add (a b : Byte) : Statement (.add a b) := of_operands _ (by simp [Instr.operands])
theorem mul (a b : Byte) : Statement (.mul a b) := of_operands _ (by simp [Instr.operands])
theorem push (a : Byte) : Statement (.push a) := of_operands _ (by simp [Instr.operands])
theorem pop (a : Byte) : Statement (.pop a) := of_operands _ (by simp [Instr.operands])
theorem call (a : Byte) : Statement (.call a) := of_operands _ (by simp [Instr.operands])
theorem ret : Statement .ret := of_operands _ (by simp [Instr.operands])

end Sys2Proof.Laws.EncodeLength
end

