-- ==== Sys2Proof/Laws/Step.lean ====
section
/-! SUPPORT. What a fetch and a cycle can answer, and which bytes a fetch sees. -/

namespace Sys2Proof.Machine

theorem step_of_running {s : State} (h : s.status = .running) : step s = s.cycle := by simp [step, h]

/-- A fetch gives the instruction the bytes at the pc decode to, or raises what stopped the decoding (R100). -/
theorem State.fetch_cases (s : State) :
    (∃ i rest, decode s.fetchBytes = .ok (i, rest) ∧ s.fetch = .ok i ∧ s.cycle = exec i s) ∨
    (∃ e, decode s.fetchBytes = .error e ∧ s.fetch = .error (fetchRaise s.pc e) ∧
      s.cycle = .next (s.raise (fetchRaise s.pc e))) := by
  unfold State.cycle State.fetch
  rcases decode s.fetchBytes with e | ⟨i, rest⟩
  · exact .inr ⟨e, rfl, rfl, rfl⟩
  · exact .inl ⟨i, rest, rfl, rfl, rfl⟩

theorem State.cycle_of_decode_ok {s : State} {i : Instr} {rest : List Byte}
    (h : decode s.fetchBytes = .ok (i, rest)) : s.cycle = exec i s := by
  simp [State.cycle, State.fetch, h]

theorem State.cycle_of_decode_error {s : State} {e : DecodeError} (h : decode s.fetchBytes = .error e) :
    s.cycle = .next (s.raise (fetchRaise s.pc e)) := by
  simp [State.cycle, State.fetch, h]

/-- The bytes a fetch sees are those at `pc`, `pc + 1` and `pc + 2` that lie inside memory (R40, R67). -/
theorem State.fetchBytes_eq (s : State) :
    s.fetchBytes =
      if s.pc.toNat ≤ 253 then
        [s.mem.read s.pc.toNat, s.mem.read (s.pc.toNat + 1), s.mem.read (s.pc.toNat + 2)]
      else if s.pc.toNat = 254 then [s.mem.read 254, s.mem.read 255]
      else if s.pc.toNat = 255 then [s.mem.read 255]
      else [] := by
  unfold State.fetchBytes
  generalize s.pc.toNat = p
  simp only [Memory.bytesFrom, Config.memSize]
  split_ifs <;> first | omega | (subst_vars; rfl)

end Sys2Proof.Machine
end

