-- ==== Sys2Proof/Tests/Slice0.lean ====
section
/-! SUPPORT. The model's own tests: ill-formed terms, decoding of words written out from the spec, vectors of
spec/95_test_vectors.md, and a witness that meets the hypotheses of every obligation that has any. -/

open Sys2Proof Sys2Proof.Machine

namespace Sys2Proof.Tests

/-- The next state of an outcome, which can be compared. -/
def nextOf (o : StepOutcome) : Option State :=
  match o with
  | .next t => some t
  | .fault _ => none
  | .refused _ => none

theorem next_of_nextOf {o : StepOutcome} {t : State} (h : nextOf o = some t) : o = .next t := by
  cases o with
  | next u => exact congrArg Host.Outcome.next (Option.some.inj h)
  | fault r => cases h
  | refused r => cases h

/-- The reset state with the pc at `pc` and bytes stored from there. -/
def stateAt (pc : Nat) (bytes : List Byte) : State :=
  { State.reset with pc := BitVec.ofNat 9 pc, mem := Memory.writeFrom [] pc bytes }

/-- One field or more of the state after one step. -/
def after {α : Type} (s : State) (view : State → α) : Option α := (nextOf (step s)).map view

/-! ### Well-formedness: an ill-formed term for each check -/

theorem test_wf_ldi_refuses_index_8 : (Instr.ldi 8 0).wellFormed = false := by decide
theorem test_wf_ldi_takes_any_immediate : (Instr.ldi 7 255).wellFormed = true := by decide
theorem test_wf_prn_refuses_index_8 : (Instr.prn 8).wellFormed = false := by decide
theorem test_wf_add_refuses_first_index : (Instr.add 8 7).wellFormed = false := by decide
theorem test_wf_add_refuses_second_index : (Instr.add 7 8).wellFormed = false := by decide
theorem test_wf_mul_refuses_first_index : (Instr.mul 255 0).wellFormed = false := by decide
theorem test_wf_mul_refuses_second_index : (Instr.mul 0 255).wellFormed = false := by decide
theorem test_wf_push_refuses_index_8 : (Instr.push 8).wellFormed = false := by decide
theorem test_wf_pop_refuses_index_8 : (Instr.pop 8).wellFormed = false := by decide
theorem test_wf_call_refuses_index_8 : (Instr.call 8).wellFormed = false := by decide
/-- R60: a cell at 256, a listed zero and a falling order are each no canonical memory. -/
theorem test_memory_wf_refuses :
    ¬ Memory.wf [(256, 1#8)] ∧ ¬ Memory.wf [(5, 0#8)] ∧ ¬ Memory.wf [(6, 1#8), (5, 1#8)] := by decide

/-! ### Decoding: the words of R95, bit by bit, one for each constructor -/

theorem test_decode_ldi : decode [0b10000010#8, 0b00000000#8, 0b00001000#8] = .ok (.ldi 0 8, []) := by decide
theorem test_decode_prn : decode [0b01000111#8, 0b00000000#8] = .ok (.prn 0, []) := by decide
theorem test_decode_hlt : decode [0b00000001#8, 0b11111111#8] = .ok (.hlt, [0b11111111#8]) := by decide
theorem test_decode_add : decode [0b10100000#8, 0b00000000#8, 0b00000001#8] = .ok (.add 0 1, []) := by decide
theorem test_decode_mul : decode [0b10100010#8, 0b00000011#8, 0b00000010#8] = .ok (.mul 3 2, []) := by decide
theorem test_decode_push : decode [0b01000101#8, 0b00000111#8] = .ok (.push 7, []) := by decide
theorem test_decode_pop : decode [0b01000110#8, 0b00000100#8] = .ok (.pop 4, []) := by decide
theorem test_decode_call : decode [0b01010000#8, 0b00000001#8] = .ok (.call 1, []) := by decide
theorem test_decode_ret : decode [0b00010001#8] = .ok (.ret, []) := by decide
/-- Vectors X1, X5, X6, and the operand bytes that are missing. -/
theorem test_decode_refuses :
    decode [0b11111111#8] = .error (.unknownInstruction 255) ∧
    decode [0b10100001#8, 0, 0] = .error (.unknownInstruction 0xA1) ∧
    decode [0b00010000#8] = .error (.unknownInstruction 0x10) ∧ decode [] = .error .noOpcode ∧
    decode [0x47#8] = .error .noOperandA ∧ decode [0x82#8, 0] = .error .noOperandB := by decide
/-- The table numbers the first byte lowest: A2 00 01 is 0x0100A2, and above `nbits` all bits are 0. -/
theorem test_decodeTableWord :
    decodeTableWord 24 0x0100A2 = some (.mul 0 1) ∧ decodeTableWord 8 0x0100A2 = some (.mul 0 0) ∧
    decodeTableWord 8 0x00 = none := by decide
theorem test_withFetchWord_runs :
    (nextOf (step (State.reset.withFetchWord 24 0x080082))).map (fun t => (t.reg 0, t.pc)) = some (8#8, 3#9) := by decide

/-! ### Vectors of spec/95_test_vectors.md, one step each -/

/-- I2 and I7. -/
theorem test_ldi :
    after ((stateAt 0 [0x82, 3, 0]).setReg 3 0x55) (fun t => (t.reg 3, t.pc)) = some (0#8, 3#9) ∧
    after (stateAt 0xFD [0x82, 0, 7]) (fun t => (t.reg 0, t.pc, t.status)) = some (7#8, 0x100#9, .running) := by decide
/-- I6 and I8. -/
theorem test_ldi_faults :
    after (stateAt 0 [0x82, 8, 1]) (fun t => (t.status, t.fault)) =
      some (.faulted, ⟨.registerIndexOutOfRange, 0, 8⟩) ∧
    after (stateAt 0xFE [0x82, 0]) (fun t => (t.status, t.fault)) =
      some (.faulted, ⟨.addressOutOfRange, 0xFE, 0x100⟩) := by decide
/-- O1 and O4. -/
theorem test_prn :
    after ((stateAt 9 [0x47, 0]).setReg 0 0x48) (fun t => (t.out, t.pc)) = some ([72#8], 0x0B#9) ∧
    stepOutput ((stateAt 0 [0x47, 2]).setReg 2 0xFF) = [255#8] := by decide
/-- O5 and O7. -/
theorem test_prn_faults :
    after (stateAt 0 [0x47, 8]) (fun t => (t.fault, t.out)) = some (⟨.registerIndexOutOfRange, 0, 8⟩, []) ∧
    after (stateAt 0xFF [0x47]) (fun t => (t.fault, t.out)) = some (⟨.addressOutOfRange, 0xFF, 0x100⟩, []) := by decide
/-- H1 and H2. -/
theorem test_hlt :
    after (stateAt 0x0B [0x01]) (fun t => (t.halted, t.status, t.pc)) = some (true, .halted, 0x0B#9) ∧
    after (stateAt 0xFF [0x01]) (fun t => (t.halted, t.status, t.pc)) = some (true, .halted, 0xFF#9) := by decide
/-- A2 and A5. -/
theorem test_add :
    after (((stateAt 0 [0xA0, 0, 1]).setReg 0 0xC8).setReg 1 0x64) (fun t => (t.reg 0, t.reg 1, t.pc)) =
      some (0x2C#8, 0x64#8, 3#9) ∧
    after ((stateAt 0 [0xA0, 3, 3]).setReg 3 0x81) (fun t => t.reg 3) = some 0x02#8 := by decide
/-- A10 and A11. -/
theorem test_add_first_index_and_register_7 :
    after (stateAt 0 [0xA0, 8, 9]) (fun t => t.fault) = some ⟨.registerIndexOutOfRange, 0, 8⟩ ∧
    after ((stateAt 0 [0xA0, 7, 0]).setReg 0 0x0C) (fun t => t.reg 7) = some 0#8 := by decide
/-- M2 and M4. -/
theorem test_mul :
    after (((stateAt 0 [0xA2, 0, 1]).setReg 0 0x2C).setReg 1 0x64) (fun t => (t.reg 0, t.pc)) = some (0x30#8, 3#9) ∧
    after (((stateAt 0 [0xA2, 0, 1]).setReg 0 0xFF).setReg 1 0xFF) (fun t => t.reg 0) = some 1#8 := by decide
/-- M9, and the ALU block alone. -/
theorem test_mul_fault_and_alu :
    after (stateAt 0 [0xA2, 0, 0xFF]) (fun t => t.fault) = some ⟨.registerIndexOutOfRange, 0, 0xFF⟩ ∧
    alu 0x82 1 2 = .error (.unsupportedALUOperation 0x82) := by decide
/-- K3 and K5. -/
theorem test_push :
    after (((stateAt 0x10 [0x45, 0]).setReg 7 0).setReg 0 0xAB) (fun t => (t.reg 7, t.mem.read 0xFF)) =
      some (0xFF#8, 0xAB#8) ∧
    after (stateAt 0 [0x45, 7]) (fun t => (t.reg 7, t.mem.read 0xF3, t.pc)) = some (0xF3#8, 0xF3#8, 2#9) := by decide
/-- K8 and K10. -/
theorem test_push_fault_and_code :
    after (stateAt 0 [0x45, 8]) (fun t => (t.fault, t.reg 7)) = some (⟨.registerIndexOutOfRange, 0, 8⟩, 0xF4#8) ∧
    after (((stateAt 6 [0x45, 0, 0xFF]).setReg 7 9).setReg 0 1) (fun t => (t.pc, t.fetchBytes.head?)) =
      some (8#9, some 1#8) := by decide
/-- K4 and K6. -/
theorem test_pop :
    after ((stateAt 0 [0x46, 0]).setReg 7 0xFF) (fun t => (t.reg 0, t.reg 7)) = some (0#8, 0#8) ∧
    after { (stateAt 0 [0x46, 7]).setReg 7 0xF3 with mem := [(0, 0x46#8), (1, 7#8), (0xF3, 0x20#8)] }
      (fun t => t.reg 7) = some 0x21#8 := by decide
/-- C3 and C6. -/
theorem test_call :
    after (stateAt 0 [0x50, 7]) (fun t => (t.reg 7, t.mem.read 0xF3, t.pc)) = some (0xF3#8, 2#8, 0xF3#9) ∧
    after ((stateAt 0xFD [0x50, 0]).setReg 0 0x10) (fun t => (t.reg 7, t.mem.read 0xF3, t.pc)) =
      some (0xF3#8, 0xFF#8, 0x10#9) := by decide
/-- C5 and C7. -/
theorem test_call_faults :
    after ((stateAt 0xFE [0x50, 0]).setReg 0 0x10) (fun t => (t.fault, t.reg 7)) =
      some (⟨.addressOutOfRange, 0xFE, 0x100⟩, 0xF4#8) ∧
    after (stateAt 0 [0x50, 9]) (fun t => t.fault) = some ⟨.registerIndexOutOfRange, 0, 9⟩ := by decide
/-- C9 and C10. -/
theorem test_ret :
    after ((stateAt 3 [0x11]).setReg 7 0xFF) (fun t => (t.pc, t.reg 7)) = some (0#9, 0#8) ∧
    after { (stateAt 0xFF []).setReg 7 0xF3 with mem := [(0xF3, 0x40#8), (0xFF, 0x11#8)] }
      (fun t => (t.pc, t.reg 7)) = some (0x40#9, 0xF4#8) := by decide
/-- X2, X3 and X4. -/
theorem test_fetch_faults :
    after State.reset (fun t => (t.status, t.fault, t.halted)) =
      some (.faulted, ⟨.unknownInstruction, 0, 0⟩, false) ∧
    after (stateAt 0xFF [0xC5]) (fun t => t.fault) = some ⟨.unknownInstruction, 0xFF, 0xC5⟩ ∧
    after (stateAt 0x100 []) (fun t => (t.fault, t.pc)) = some (⟨.addressOutOfRange, 0x100, 0x100⟩, 0x100#9) := by decide
/-- L2 and L4, and the value above 255 of L5. -/
theorem test_loader :
    (boot (some "  01000111  \n\t00000000#x".toList)).map (·.mem) = .ok [(0, 0x47#8)] ∧
    ["hello", "0b101", "10 01", "12"].map (fun l => parseLine l.toList) = [none, none, none, none] ∧
    (boot (some "100000000".toList)).map (·.mem) = .error (.valueAbove255 256) := by decide

/-! ### Witnesses: the hypotheses of every obligation that has any can be met, for each clause -/

theorem witness_DecodeAcceptsOnlyEncodings : decode [0x82#8, 3, 255, 7] = .ok (.ldi 3 255, [7]) := by decide

theorem witness_StepRunsDecodedInstruction :
    (stateAt 0 [0x82, 8, 0]).status = .running ∧ decode (stateAt 0 [0x82, 8, 0]).fetchBytes = .ok (.ldi 8 0, []) := by decide

/-- LDI in the last three cells. -/
theorem witness_StepRunsInstructionInMemory :
    let s := stateAt 0xFD [0x82, 1, 2]
    let i := Instr.ldi 1 2
    s.status = .running ∧ s.pc.toNat + (encode i).length ≤ 256 ∧
      ∀ k (h : k < (encode i).length), s.mem.read (s.pc.toNat + k) = (encode i)[k] := by
  refine ⟨rfl, by decide, fun k h => ?_⟩
  have : k = 0 ∨ k = 1 ∨ k = 2 := by
    have : (encode (Instr.ldi 1 2)).length = 3 := rfl
    omega
  rcases this with rfl | rfl | rfl <;> rfl

theorem witness_StepFollowsTheCycle_stopped : ({ State.reset with status := .faulted } : State).status ≠ .running := by decide
theorem witness_StepFollowsTheCycle_beyond :
    (stateAt 256 []).status = .running ∧ 255 < (stateAt 256 []).pc.toNat := by decide
theorem witness_StepFollowsTheCycle_unknown :
    let s := stateAt 255 [0xFF]
    s.status = .running ∧ s.pc.toNat ≤ 255 ∧ decodeOpcode (s.mem.read s.pc.toNat) = none := by decide
theorem witness_StepFollowsTheCycle_operandA :
    let s := stateAt 255 [0x47]
    s.status = .running ∧ s.pc.toNat ≤ 255 ∧ decodeOpcode (s.mem.read s.pc.toNat) = some .prn ∧
      1 ≤ operandCount (s.mem.read s.pc.toNat) ∧ 255 < s.pc.toNat + 1 := by decide
theorem witness_StepFollowsTheCycle_operandB :
    let s := stateAt 254 [0x82, 1]
    s.status = .running ∧ s.pc.toNat ≤ 255 ∧ decodeOpcode (s.mem.read s.pc.toNat) = some .ldi ∧
      operandCount (s.mem.read s.pc.toNat) = 2 ∧ s.pc.toNat + 1 ≤ 255 ∧ 255 < s.pc.toNat + 2 := by decide
theorem witness_StepFollowsTheCycle_execute :
    let s := stateAt 253 [0x82, 1, 2]
    s.status = .running ∧ s.pc.toNat ≤ 255 ∧ decodeOpcode (s.mem.read s.pc.toNat) = some .ldi ∧
      (1 ≤ operandCount (s.mem.read s.pc.toNat) → s.pc.toNat + 1 ≤ 255) ∧
      (operandCount (s.mem.read s.pc.toNat) = 2 → s.pc.toNat + 2 ≤ 255) := by decide
theorem witness_StepFollowsTheCycle_faults :
    State.reset.status = .running ∧ ∃ t, step State.reset = .next t ∧ t.status = .faulted :=
  ⟨rfl, State.reset.afterFault .unknownInstruction 0, next_of_nextOf (by decide), rfl⟩

theorem witness_StoppedCoreIgnoresStep :
    ({ State.reset with status := .halted } : State).status = .halted ∨
    ({ State.reset with status := .halted } : State).status = .faulted := by decide

theorem witness_UnknownOpcodeStopsAndReports :
    let s := stateAt 254 [0xA1]
    s.status = .running ∧ s.pc.toNat ≤ 255 ∧
    s.mem.read s.pc.toNat ∉ [0x82#8, 0x47#8, 0x01#8, 0xA0#8, 0xA2#8, 0x45#8, 0x46#8, 0x50#8, 0x11#8] := by decide

/-- Each entry of R187's order, and none: a CALL at 254, an ADD with two bad indices, an LDI at 254, and an ADD at 253. -/
theorem witness_FirstFaultWins :
    (stateAt 254 [0x50, 7]).status = .running ∧
    (stateAt 256 []).firstFault = some (.addressOutOfRange 256) ∧
    (stateAt 255 [0xC5]).firstFault = some (.unknownInstruction 0xC5) ∧
    (stateAt 255 [0x45]).firstFault = some (.addressOutOfRange 256) ∧
    (stateAt 254 [0x82, 8]).firstFault = some (.addressOutOfRange 256) ∧
    (stateAt 0 [0xA0, 8, 9]).firstFault = some (.registerIndexOutOfRange 8) ∧
    (stateAt 0 [0xA0, 7, 8]).firstFault = some (.registerIndexOutOfRange 8) ∧
    (stateAt 254 [0x50, 8]).firstFault = some (.registerIndexOutOfRange 8) ∧
    (stateAt 254 [0x50, 7]).firstFault = some (.addressOutOfRange 256) ∧
    (stateAt 253 [0xA0, 7, 7]).firstFault = none := by decide

theorem witness_WellFormedInstructionCompletes :
    (Instr.call 7).wellFormed = true ∧ ((Instr.call 7).kind = .call → (stateAt 253 []).pc.toNat ≤ 253) := by decide
/-- LDI by its index alone, whatever its immediate; ADD by its first index, MUL by its second. -/
theorem witness_IllFormedInstructionRaises :
    (Instr.ldi 8 9).wellFormed = false ∧ (Instr.add 8 255).wellFormed = false ∧ (Instr.mul 7 8).wellFormed = false := by decide

theorem witness_LdiLoadsImmediate :
    ((7 : Byte).toNat < 8 ∧ (stateAt 253 []).pc.toNat ≤ 253) ∧ 8 ≤ (8 : Byte).toNat ∧
    ((stateAt 254 [0x82]).status = .running ∧ (stateAt 254 [0x82]).mem.read (stateAt 254 [0x82]).pc.toNat = 0x82#8 ∧
      (stateAt 254 [0x82]).pc = 254) ∧
    ((stateAt 255 [0x82]).status = .running ∧ (stateAt 255 [0x82]).mem.read (stateAt 255 [0x82]).pc.toNat = 0x82#8 ∧
      (stateAt 255 [0x82]).pc = 255) ∧
    ((stateAt 253 [0x82]).status = .running ∧ (stateAt 253 [0x82]).mem.read (stateAt 253 [0x82]).pc.toNat = 0x82#8 ∧
      (stateAt 253 [0x82]).pc.toNat ≤ 253) := by decide
theorem witness_PrnEmitsRegister :
    ((7 : Byte).toNat < 8 ∧ (stateAt 254 []).pc.toNat ≤ 254) ∧ 8 ≤ (8 : Byte).toNat ∧
    ((stateAt 255 [0x47]).status = .running ∧ (stateAt 255 [0x47]).mem.read (stateAt 255 [0x47]).pc.toNat = 0x47#8 ∧
      (stateAt 255 [0x47]).pc = 255) ∧
    ((stateAt 254 [0x47]).status = .running ∧ (stateAt 254 [0x47]).mem.read (stateAt 254 [0x47]).pc.toNat = 0x47#8 ∧
      (stateAt 254 [0x47]).pc.toNat ≤ 254) := by decide
theorem witness_HltStopsCore :
    ((stateAt 255 [0x01]).status = .running ∧ (stateAt 255 [0x01]).pc.toNat ≤ 255 ∧
      (stateAt 255 [0x01]).mem.read (stateAt 255 [0x01]).pc.toNat = 0x01#8) ∧
    (∃ t, exec .hlt State.reset = .next t) ∧
    ∃ t, step (stateAt 255 [0x01]) = .next t ∧ t.status = .halted :=
  ⟨by decide, ⟨State.reset.halt, next_of_nextOf (by decide)⟩,
    (stateAt 255 [0x01]).halt, next_of_nextOf (by decide), rfl⟩
theorem witness_AddAddsModulo256 :
    ((7 : Byte).toNat < 8 ∧ (0 : Byte).toNat < 8 ∧ (stateAt 253 []).pc.toNat ≤ 253) ∧ 8 ≤ (8 : Byte).toNat ∧
    ((7 : Byte).toNat < 8 ∧ 8 ≤ (8 : Byte).toNat) ∧
    ((stateAt 254 [0xA0]).status = .running ∧ (stateAt 254 [0xA0]).mem.read (stateAt 254 [0xA0]).pc.toNat = 0xA0#8 ∧
      (stateAt 254 [0xA0]).pc = 254) ∧
    ((stateAt 253 [0xA0]).status = .running ∧ (stateAt 253 [0xA0]).mem.read (stateAt 253 [0xA0]).pc.toNat = 0xA0#8 ∧
      (stateAt 253 [0xA0]).pc.toNat ≤ 253) := by decide
theorem witness_MulMultipliesModulo256 :
    ((0 : Byte).toNat < 8 ∧ (7 : Byte).toNat < 8 ∧ (stateAt 253 []).pc.toNat ≤ 253) ∧ 8 ≤ (255 : Byte).toNat ∧
    ((0 : Byte).toNat < 8 ∧ 8 ≤ (255 : Byte).toNat) ∧
    ((stateAt 255 [0xA2]).status = .running ∧ (stateAt 255 [0xA2]).mem.read (stateAt 255 [0xA2]).pc.toNat = 0xA2#8 ∧
      (stateAt 255 [0xA2]).pc = 255) ∧
    ((stateAt 253 [0xA2]).status = .running ∧ (stateAt 253 [0xA2]).mem.read (stateAt 253 [0xA2]).pc.toNat = 0xA2#8 ∧
      (stateAt 253 [0xA2]).pc.toNat ≤ 253) := by decide
theorem witness_AluContract :
    (0xA0#8 = 0xA0#8) ∧ (0xA2#8 = 0xA2#8) ∧ (0xA1#8 ≠ 0xA0#8 ∧ 0xA1#8 ≠ 0xA2#8) := by decide
/-- The record names the ALU's fault only where it did before the step. -/
theorem witness_CoreNeverRaisesUnsupportedAlu :
    let s := State.reset.afterFault .unsupportedALUOperation 0
    ∃ t, step s = .next t ∧ t.fault.cause = .unsupportedALUOperation :=
  ⟨State.reset.afterFault .unsupportedALUOperation 0, next_of_nextOf (by decide), rfl⟩

theorem witness_PushStoresRegister :
    ((7 : Byte).toNat < 8 ∧ (stateAt 254 []).pc.toNat ≤ 254) ∧ 8 ≤ (8 : Byte).toNat ∧
    ((stateAt 255 [0x45]).status = .running ∧ (stateAt 255 [0x45]).mem.read (stateAt 255 [0x45]).pc.toNat = 0x45#8 ∧
      (stateAt 255 [0x45]).pc = 255) ∧
    ((stateAt 254 [0x45]).status = .running ∧ (stateAt 254 [0x45]).mem.read (stateAt 254 [0x45]).pc.toNat = 0x45#8 ∧
      (stateAt 254 [0x45]).pc.toNat ≤ 254) := by decide
theorem witness_PopLoadsRegister :
    ((6 : Byte).toNat < 8 ∧ (6 : Byte) ≠ 7 ∧ (stateAt 254 []).pc.toNat ≤ 254) ∧ 8 ≤ (8 : Byte).toNat ∧
    ((stateAt 255 [0x46]).status = .running ∧ (stateAt 255 [0x46]).mem.read (stateAt 255 [0x46]).pc.toNat = 0x46#8 ∧
      (stateAt 255 [0x46]).pc = 255) ∧
    ((stateAt 254 [0x46]).status = .running ∧ (stateAt 254 [0x46]).mem.read (stateAt 254 [0x46]).pc.toNat = 0x46#8 ∧
      (stateAt 254 [0x46]).pc.toNat ≤ 254) := by decide
theorem witness_PushThenPopRestores : (7 : Byte).toNat < 8 := by decide
theorem witness_CallPushesReturnAddress :
    ((7 : Byte).toNat < 8 ∧ (stateAt 253 []).pc.toNat ≤ 253) ∧ 8 ≤ (8 : Byte).toNat ∧
    ((stateAt 255 [0x50]).status = .running ∧ (stateAt 255 [0x50]).mem.read (stateAt 255 [0x50]).pc.toNat = 0x50#8 ∧
      (stateAt 255 [0x50]).pc = 255) ∧
    ((stateAt 254 [0x50, 7]).status = .running ∧
      (stateAt 254 [0x50, 7]).mem.read (stateAt 254 [0x50, 7]).pc.toNat = 0x50#8 ∧ (stateAt 254 [0x50, 7]).pc = 254 ∧
      ((stateAt 254 [0x50, 7]).mem.read 255).toNat < 8 ∧ (stateAt 254 [0x50, 7]).pc.toNat ≤ 254) := by decide
theorem witness_RetPopsProgramCounter :
    (stateAt 255 [0x11]).status = .running ∧ (stateAt 255 [0x11]).pc.toNat ≤ 255 ∧
      (stateAt 255 [0x11]).mem.read (stateAt 255 [0x11]).pc.toNat = 0x11#8 := by decide
/-- The state CALL leaves is itself one that meets RET's premises. -/
theorem witness_CallThenRetResumes :
    (7 : Byte).toNat < 8 ∧ (stateAt 253 []).pc.toNat ≤ 253 ∧
    ∃ t u : State, exec (.call 7) (stateAt 253 []) = .next t ∧ u.reg 7 = t.reg 7 ∧
      u.mem.read (u.reg 7).toNat = t.mem.read (t.reg 7).toNat :=
  ⟨by decide, by decide, ((stateAt 0xF3 []).setReg 7 0xF3 : State) |> fun s => { s with mem := [(0xF3, 0xFF#8)] }, _,
    next_of_nextOf (by decide), rfl, rfl⟩

theorem witness_ProgramCounterChanges :
    ((Instr.add 7 7).wellFormed = true ∧ (Instr.add 7 7).kind ∈ [Kind.ldi, .add, .mul] ∧ (stateAt 253 []).pc.toNat ≤ 253) ∧
    ((Instr.pop 7).wellFormed = true ∧ (Instr.pop 7).kind ∈ [Kind.prn, .push, .pop] ∧ (stateAt 254 []).pc.toNat ≤ 254) ∧
    ((7 : Byte).toNat < 8 ∧ (stateAt 253 []).pc.toNat ≤ 253) ∧
    (State.reset.status = .running ∧ ∃ t, step State.reset = .next t ∧ t.status = .faulted) :=
  ⟨by decide, by decide, by decide, witness_StepFollowsTheCycle_faults⟩
/-- LDI,7 leaves register 0 alone, does not read register 7, and neither reads nor writes register 0. -/
theorem witness_RegistersUsedAsListed :
    (∃ t, exec (.ldi 7 1) State.reset = .next t) ∧ ¬ (Instr.ldi 7 1).writesReg 0 ∧
    ¬ (Instr.ldi 7 1).readsReg 7 ∧ (Instr.ldi 7 1).writesReg 7 ∧ ¬ (Instr.ldi 7 1).readsReg 0 :=
  ⟨⟨{ State.reset.setReg 7 1 with pc := 3 }, next_of_nextOf (by decide)⟩, by unfold Instr.writesReg; decide,
    by unfold Instr.readsReg; decide, by unfold Instr.writesReg; decide, by unfold Instr.readsReg; decide⟩
/-- LDI with an immediate above 7 completes, and raises by its index; ADD completes; MUL raises by its second index. -/
theorem witness_RegisterInstructionFrame :
    (∃ t, exec (.ldi 7 255) State.reset = .next t) ∧ (∃ t, exec (.ldi 8 0) State.reset = .next t) ∧
    (∃ t, exec (.add 7 0) State.reset = .next t) ∧ (∃ t, exec (.mul 0 8) State.reset = .next t) :=
  ⟨⟨{ State.reset.setReg 7 255 with pc := 3 }, next_of_nextOf (by decide)⟩,
    ⟨State.reset.afterFault .registerIndexOutOfRange 8, next_of_nextOf (by decide)⟩,
    ⟨{ State.reset with pc := 3 }, next_of_nextOf (by decide)⟩,
    ⟨State.reset.afterFault .registerIndexOutOfRange 8, next_of_nextOf (by decide)⟩⟩
theorem witness_OutputAndHaltFrame :
    (∃ t, exec (.prn 7) State.reset = .next t) ∧ (∃ t, exec .hlt State.reset = .next t) :=
  ⟨⟨{ State.reset with pc := 2, out := [0xF4#8] }, next_of_nextOf (by decide)⟩,
    ⟨State.reset.halt, next_of_nextOf (by decide)⟩⟩
theorem witness_StackStoreFrame :
    (∃ t, exec (.push 7) State.reset = .next t) ∧ (∃ t, exec (.call 7) State.reset = .next t) ∧
    0 ≠ (State.reset.stackPointer - 1).toNat :=
  ⟨⟨{ State.reset.setReg 7 0xF3 with pc := 2, mem := [(0xF3, 0xF3#8)] }, next_of_nextOf (by decide)⟩,
    ⟨{ State.reset.setReg 7 0xF3 with pc := 0xF3, mem := [(0xF3, 2#8)] }, next_of_nextOf (by decide)⟩, by decide⟩
theorem witness_StackLoadFrame :
    (∃ t, exec (.pop 0) State.reset = .next t) ∧ (∃ t, exec .ret State.reset = .next t) :=
  ⟨⟨{ State.reset.setReg 7 0xF5 with pc := 2 }, next_of_nextOf (by decide)⟩,
    ⟨{ State.reset.setReg 7 0xF5 with pc := 0 }, next_of_nextOf (by decide)⟩⟩
/-- Another memory that agrees in the cell register 7 points at. -/
theorem witness_DataMemoryReadsAsListed :
    Instr.ret.kind ∈ [Kind.pop, .ret] →
      Memory.read [(0xF3, 1#8)] (State.reset.reg 7).toNat = State.reset.mem.read (State.reset.reg 7).toNat := by decide

theorem witness_HaltedFlagOnlyByHlt :
    (∃ t, step (stateAt 255 [0x01]).halt = .next t ∧ (stateAt 255 [0x01]).halt.halted = true) ∧
    (∃ t, step (stateAt 255 [0x01]) = .next t ∧ (stateAt 255 [0x01]).halted = false ∧ t.halted = true) ∧
    (State.reset.status = .running ∧ ∃ t, step State.reset = .next t ∧ t.status = .faulted) ∧
    ((stateAt 255 [0x01]).halt.Inv ∧ (stateAt 255 [0x01]).halt.halted = true) :=
  ⟨⟨(stateAt 255 [0x01]).halt, next_of_nextOf (by decide), rfl⟩,
    ⟨(stateAt 255 [0x01]).halt, next_of_nextOf (by decide), rfl, rfl⟩, witness_StepFollowsTheCycle_faults,
    ⟨by decide, by decide, by decide, rfl⟩, rfl⟩
theorem witness_StatusTransitions :
    (∃ t, step (stateAt 0 [0x01]) = .next t ∧ t.status = .halted) ∧ (stateAt 0 [0x01]).halt.status ≠ .running :=
  ⟨⟨(stateAt 0 [0x01]).halt, next_of_nextOf (by decide), rfl⟩, by decide⟩
theorem witness_FaultEntryIsPrecise :
    (State.reset.status = .running ∧ ∃ t, step State.reset = .next t ∧ t.status = .faulted) ∧
    (let s := State.reset.afterFault .addressOutOfRange 256
     s.status = .faulted ∧ ∃ t, step s = .next t ∧ t.status = .faulted) ∧
    (∃ t, step (stateAt 0 [0x01]) = .next t ∧ t.status ≠ .faulted) :=
  ⟨witness_StepFollowsTheCycle_faults,
    ⟨rfl, State.reset.afterFault .addressOutOfRange 256, next_of_nextOf (by decide), rfl⟩,
    ⟨(stateAt 0 [0x01]).halt, next_of_nextOf (by decide), by decide⟩⟩
theorem witness_TracePortShowsState :
    2 < 3 ∧ (stateAt 253 []).pc.toNat + 2 ≤ 255 ∧ 255 < (stateAt 254 []).pc.toNat + 2 := by decide
theorem witness_OutputOnlyByPrn :
    ∃ t, step (stateAt 254 [0x47, 7]) = .next t ∧ stepOutput (stateAt 254 [0x47, 7]) = [0xF4#8] :=
  ⟨{ stateAt 254 [0x47, 7] with pc := 256, out := [0xF4#8] }, next_of_nextOf (by decide), by decide⟩
theorem witness_MemoryCellsHoldWrites : 255 < 256 ∧ 254 ≠ 255 ∧ 0 < 256 := by decide
theorem witness_OutOfRangeAccessRaises : 255 < 256 := by decide
theorem witness_MemoryIsItsCells :
    Memory.wf [(0, 1#8), (255, 2#8)] ∧ Memory.wf (Memory.write [(255, 2#8)] 0 1) ∧
    ∀ addr < 256, Memory.read [(0, 1#8), (255, 2#8)] addr = (Memory.write [(255, 2#8)] 0 1).read addr := by
  have h : Memory.write [(255, 2#8)] 0 1 = [(0, 1#8), (255, 2#8)] := by decide
  exact ⟨by decide, by decide, fun addr _ => by rw [h]⟩
/-- A push onto the byte after itself (K10), and a call of the cell that takes its return address. -/
theorem witness_StoreSeenByNextFetch :
    let s := ((stateAt 6 [0x45, 0]).setReg 7 9).setReg 0 8
    (0 : Byte).toNat < 8 ∧ s.pc.toNat ≤ 253 ∧
    (∃ t, exec (.push 0) s = .next t ∧ t.pc.toNat = (s.reg 7 - 1).toNat) ∧
    (∃ t, exec (.call 0) s = .next t ∧ t.pc.toNat = (s.reg 7 - 1).toNat) :=
  ⟨by decide, by decide,
    ⟨{ ((stateAt 8 [8]).setReg 7 8).setReg 0 8 with mem := [(6, 0x45#8), (8, 8#8)] }, next_of_nextOf (by decide), by decide⟩,
    ⟨{ ((stateAt 8 [8]).setReg 7 8).setReg 0 8 with mem := [(6, 0x45#8), (8, 8#8)] }, next_of_nextOf (by decide), by decide⟩⟩
theorem witness_StepKeepsInvariant : State.reset.Inv ∧ ∃ t, step State.reset = .next t :=
  ⟨⟨by decide, by decide, by decide, rfl⟩, _, witness_StepFollowsTheCycle_faults.2.choose_spec.1⟩
/-- The empty memory faults in its first step, and stays so. -/
theorem witness_RunEndsOneWay :
    State.reset.Inv ∧ 1 ≤ 2 ∧ ∃ t : State, Host.Core.run Sys2Proof.core 1 State.reset = .next t ∧ t.status ≠ .running :=
  ⟨⟨by decide, by decide, by decide, rfl⟩, by decide, State.reset.afterFault .unknownInstruction 0,
    next_of_nextOf (by decide), by decide⟩
/-- A load that succeeds, and values that do not make one fail. -/
theorem witness_LoaderBuildsImage :
    (∃ m, loadLines ["11111111".toList, "# x".toList] 0 State.reset.mem = .ok m) ∧
    (∀ v ∈ ["11111111".toList, "# x".toList].filterMap parseLine, v ≤ 255) ∧
    (["11111111".toList, "# x".toList].filterMap parseLine).length ≤ 256 :=
  ⟨⟨[(0, 255#8)], by decide⟩, by decide, by decide⟩
theorem witness_LoaderRoundTrip : ∃ s, boot (some "10000010 # LDI\n\n00000000".toList) = .ok s :=
  ⟨stateAt 0 [0x82, 0], by decide⟩
theorem witness_BootMeetsLaunchPremises : ∃ s, boot (some "00000001".toList) = .ok s := ⟨stateAt 0 [0x01], by decide⟩

end Sys2Proof.Tests
end

section
/-! The state after a push, and the equations between updates of the state that the proofs about instructions use. -/

namespace Sys2Proof.Machine

/-- The state after a push of `v`: register 7 one lower, and `v` in the cell it then points at (R150, R160). -/
def State.pushed (s : State) (v : Byte) : State :=
  { s.setReg 7 (s.reg 7 - 1) with mem := s.mem.write (s.reg 7 - 1).toNat v }

/-- `pushed` is the model's own push, which never raises (R66). -/
theorem State.pushByte_eq_pushed (s : State) (value : State → Byte) :
    s.pushByte value = .ok (s.pushed (value (s.setReg 7 (s.reg 7 - 1)))) := s.pushByte_eq value

variable (s : State) {r r' : RegIdx} (v w : Byte)

@[simp] theorem State.pushed_pc : (s.pushed v).pc = s.pc := rfl
@[simp] theorem State.pushed_halted : (s.pushed v).halted = s.halted := rfl
@[simp] theorem State.pushed_status : (s.pushed v).status = s.status := rfl
@[simp] theorem State.pushed_fault : (s.pushed v).fault = s.fault := rfl
@[simp] theorem State.pushed_out : (s.pushed v).out = s.out := rfl
@[simp] theorem State.pushed_reg : (s.pushed v).reg r = (s.setReg 7 (s.reg 7 - 1)).reg r := rfl

/-- Register 7 alone is changed by taking a byte off the stack (R151, R161). -/
theorem State.reg_dropTop_ne (h : 7 ≠ r) : s.dropTop.reg r = s.reg r := s.reg_setReg_ne _ _ h

/-- The later of two writes of one register stands. -/
theorem State.setReg_setReg_self (r : RegIdx) : (s.setReg r v).setReg r w = s.setReg r w := by
  simp [State.setReg]

/-- Writes of different registers can be done in either order. -/
theorem State.setReg_comm (h : r ≠ r') : (s.setReg r v).setReg r' w = (s.setReg r' w).setReg r v := by
  simp only [State.setReg]
  rw [Vector.set_comm _ _ (Fin.val_ne_of_ne h)]

/-- After the decrement of a push, a register other than 7 and `r` does not depend on `r`. -/
theorem State.setReg_decrement_reg (h7 : r ≠ 7) (h : r ≠ r') :
    ((s.setReg r v).setReg 7 ((s.setReg r v).reg 7 - 1)).reg r' = (s.setReg 7 (s.reg 7 - 1)).reg r' := by
  rw [s.reg_setReg_ne r v h7, s.setReg_comm v _ h7, State.reg_setReg_ne _ _ _ h]

/-- A push does not read a register other than 7. -/
theorem State.pushed_setReg (h : r ≠ 7) : (s.setReg r v).pushed w = (s.pushed w).setReg r v := by
  unfold State.pushed
  rw [s.reg_setReg_ne r v h, s.setReg_comm v _ h]
  rfl

/-- Taking a byte off the stack does not read a register other than 7. -/
theorem State.dropTop_setReg (h : r ≠ 7) : (s.setReg r v).dropTop = s.dropTop.setReg r v := by
  unfold State.dropTop State.stackPointer
  rw [s.reg_setReg_ne r v h, s.setReg_comm v _ h]

/-- The default advance as a number, where no sum passes the 9 bits of the pc. -/
theorem State.advance_pc_toNat {k : Kind} (h : s.pc.toNat ≤ 254) :
    (s.advance k).pc.toNat = s.pc.toNat + (operandCount k.opcode + 1) := by
  have hn : operandCount k.opcode ≤ 2 := by cases k <;> decide
  simp only [State.advance_pc, BitVec.toNat_add, BitVec.toNat_ofNat]
  omega

/-- The advance and the write of a register can be done in either order. -/
theorem State.advance_setReg (k : Kind) (r : RegIdx) : (s.advance k).setReg r v = (s.setReg r v).advance k := rfl

/-- A jump zero-extends its target (R44). -/
theorem State.jump_pc_toNat : (s.jump v).pc.toNat = v.toNat := by
  simp only [State.jump_pc, BitVec.toNat_setWidth]
  omega

end Sys2Proof.Machine
end

section
/-! What executing an instruction can do: complete, with one form for each of the nine, or raise, for a bad register
operand or for CALL's return address. -/

namespace Sys2Proof.Machine

/-- The first of some operand bytes that names no register: the one a bad index puts on record (R103, R104). -/
def firstBadIndex (operands : List Byte) : Option Byte := operands.find? (fun byte => decide (8 ≤ byte.toNat))

/-- An instruction has no bad index exactly where it is well-formed (R103). -/
theorem firstBadIndex_eq_none {i : Instr} : firstBadIndex i.registerOperands = none ↔ i.wellFormed = true := by
  simp [firstBadIndex, Instr.wellFormed_iff]

/-- The instruction completes in `s` and leaves `t`: one constructor for each rule of spec/40 to 43. -/
inductive Completes (s : State) : Instr → State → Prop
  | ldi {a b : Byte} (ha : a.toNat < 8) : Completes s (.ldi a b) ((s.setReg ⟨a.toNat, ha⟩ b).advance .ldi)
  | prn {a : Byte} (ha : a.toNat < 8) : Completes s (.prn a) ((s.emit (s.reg ⟨a.toNat, ha⟩)).advance .prn)
  | hlt : Completes s .hlt s.halt
  | add {a b : Byte} (ha : a.toNat < 8) (hb : b.toNat < 8) :
    Completes s (.add a b)
      ((s.setReg ⟨a.toNat, ha⟩ (s.reg ⟨a.toNat, ha⟩ + s.reg ⟨b.toNat, hb⟩)).advance .add)
  | mul {a b : Byte} (ha : a.toNat < 8) (hb : b.toNat < 8) :
    Completes s (.mul a b)
      ((s.setReg ⟨a.toNat, ha⟩ (s.reg ⟨a.toNat, ha⟩ * s.reg ⟨b.toNat, hb⟩)).advance .mul)
  | push {a : Byte} (ha : a.toNat < 8) :
    Completes s (.push a) ((s.pushed ((s.setReg 7 (s.reg 7 - 1)).reg ⟨a.toNat, ha⟩)).advance .push)
  | pop {a : Byte} (ha : a.toNat < 8) :
    Completes s (.pop a) ((s.setReg ⟨a.toNat, ha⟩ (s.mem.read (s.reg 7).toNat)).dropTop.advance .pop)
  | call {a : Byte} (ha : a.toNat < 8) (hpc : s.pc.toNat ≤ 253) :
    Completes s (.call a)
      ((s.pushed (BitVec.ofNat 8 (s.pc.toNat + 2))).jump ((s.setReg 7 (s.reg 7 - 1)).reg ⟨a.toNat, ha⟩))
  | ret : Completes s .ret (s.dropTop.jump (s.mem.read (s.reg 7).toNat))

/-- The instruction raises `e` when executed at `pc`, whatever the rest of the state (R103, R160). -/
inductive ExecRaises (pc : PcWord) : Instr → Raise → Prop
  | badOperand {i : Instr} {operand : Byte}
    (h : firstBadIndex i.registerOperands = some operand) :
    ExecRaises pc i (.registerIndexOutOfRange operand)
  | returnAddress {a : Byte} (ha : a.toNat < 8) (hpc : 253 < pc.toNat) :
    ExecRaises pc (.call a) (.addressOutOfRange (pc.toNat + 2))

variable {s t : State} {i : Instr} {e : Raise}

/-- ADD and MUL with two good indices write what the ALU answers and advance (R140, R141). -/
theorem State.aluInstr_of_lt {k : Kind} {a b y : Byte} (ha : a.toNat < 8) (hb : b.toNat < 8)
    (hy : alu k.opcode (s.reg ⟨a.toNat, ha⟩) (s.reg ⟨b.toNat, hb⟩) = .ok y) :
    s.aluInstr k a b = .ok ((s.setReg ⟨a.toNat, ha⟩ y).advance k) := by
  simp only [State.aluInstr, except_bind_ok]
  exact ⟨_, regIndex_of_lt ha, _, regIndex_of_lt hb, y, hy, rfl⟩

/-- What `Completes` says, `exec` does. -/
theorem Completes.exec_eq (h : Completes s i t) : exec i s = .next t := by
  cases h with
  | ldi ha => rw [exec, execLdi, regIndex_of_lt ha]; rfl
  | prn ha => rw [exec, execPrn, regIndex_of_lt ha]; rfl
  | hlt => rfl
  | add ha hb => rw [exec, execAdd, State.aluInstr_of_lt ha hb (alu_add ..)]; rfl
  | mul ha hb => rw [exec, execMul, State.aluInstr_of_lt ha hb (alu_mul ..)]; rfl
  | push ha => simp only [exec, execPush, regIndex_of_lt ha, State.pushByte_eq_pushed]; rfl
  | pop ha => rw [exec, execPop, regIndex_of_lt ha, State.stackTop_eq]; rfl
  | call ha hpc =>
    simp only [exec, execCall, regIndex_of_lt ha, returnAddress_of_le hpc, State.pushByte_eq_pushed]; rfl
  | ret => rw [exec, execRet, State.stackTop_eq]; rfl

/-- The only operand, where it is bad, is the one its check raises (R103). -/
theorem regIndex_of_firstBadIndex {a operand : Byte} (h : firstBadIndex [a] = some operand) :
    regIndex a = .error (.registerIndexOutOfRange operand) := by
  have ha := List.find?_some h
  obtain rfl : operand = a := List.mem_singleton.mp (List.mem_of_find?_eq_some h)
  exact regIndex_of_ge (of_decide_eq_true ha)

/-- ADD and MUL check `a` before `b` (R104). -/
theorem State.aluInstr_of_firstBadIndex {k : Kind} {a b operand : Byte} (h : firstBadIndex [a, b] = some operand) :
    s.aluInstr k a b = .error (.registerIndexOutOfRange operand) := by
  simp only [State.aluInstr, except_bind_error]
  rcases Nat.lt_or_ge a.toNat 8 with ha | ha
  · have hb : firstBadIndex [b] = some operand := by
      rwa [firstBadIndex, List.find?_cons_of_neg (by simpa using ha)] at h
    exact .inr ⟨_, regIndex_of_lt ha, .inl (regIndex_of_firstBadIndex hb)⟩
  · obtain rfl : a = operand := by
      rw [firstBadIndex, List.find?_cons_of_pos (by simpa using ha)] at h
      exact Option.some.inj h
    exact .inl (regIndex_of_ge ha)

/-- What `ExecRaises` says, `exec` raises. -/
theorem ExecRaises.exec_eq (h : ExecRaises s.pc i e) : exec i s = .next (s.raise e) := by
  cases h with
  | badOperand h =>
    cases i with
    | ldi a b => rw [exec, execLdi, regIndex_of_firstBadIndex h]; rfl
    | prn a => rw [exec, execPrn, regIndex_of_firstBadIndex h]; rfl
    | hlt => cases h
    | add a b => rw [exec, execAdd, State.aluInstr_of_firstBadIndex h]; rfl
    | mul a b => rw [exec, execMul, State.aluInstr_of_firstBadIndex h]; rfl
    | push a => rw [exec, execPush, regIndex_of_firstBadIndex h]; rfl
    | pop a => rw [exec, execPop, regIndex_of_firstBadIndex h]; rfl
    | call a => rw [exec, execCall, regIndex_of_firstBadIndex h]; rfl
    | ret => cases h
  | returnAddress ha hpc => rw [exec, execCall, regIndex_of_lt ha, returnAddress_of_gt hpc]; rfl

/-- A well-formed instruction completes, CALL where its return address fits a byte (R103, R160). -/
theorem exists_completes (s : State) (hi : i.wellFormed = true) (hc : i.kind = .call → s.pc.toNat ≤ 253) :
    ∃ t, Completes s i t := by
  rw [Instr.wellFormed_iff] at hi
  cases i with
  | ldi a b => exact ⟨_, .ldi (hi a (.head _))⟩
  | prn a => exact ⟨_, .prn (hi a (.head _))⟩
  | hlt => exact ⟨_, .hlt⟩
  | add a b => exact ⟨_, .add (hi a (.head _)) (hi b (.tail _ (.head _)))⟩
  | mul a b => exact ⟨_, .mul (hi a (.head _)) (hi b (.tail _ (.head _)))⟩
  | push a => exact ⟨_, .push (hi a (.head _))⟩
  | pop a => exact ⟨_, .pop (hi a (.head _))⟩
  | call a => exact ⟨_, .call (hi a (.head _)) (hc rfl)⟩
  | ret => exact ⟨_, .ret⟩

/-- Every execution completes or raises. -/
theorem completes_or_raises (i : Instr) (s : State) : (∃ t, Completes s i t) ∨ ∃ e, ExecRaises s.pc i e := by
  rcases h : firstBadIndex i.registerOperands with _ | operand
  · have hi := firstBadIndex_eq_none.mp h
    by_cases hc : i.kind = .call → s.pc.toNat ≤ 253
    · exact .inl (exists_completes s hi hc)
    · obtain ⟨hk, hpc⟩ := Classical.not_imp.mp hc
      cases i with
      | call a =>
        have ha := (Instr.wellFormed_iff _).mp hi a List.mem_cons_self
        exact .inr ⟨_, .returnAddress ha (Nat.not_le.mp hpc)⟩
      | _ => cases hk
  · exact .inr ⟨_, .badOperand h⟩

/-- The inversion of `exec`: what the instruction completes with, or the state with its raise taken. -/
theorem exec_eq_next_iff : exec i s = .next t ↔ Completes s i t ∨ ∃ e, ExecRaises s.pc i e ∧ t = s.raise e := by
  constructor
  · intro h
    rcases completes_or_raises i s with ⟨u, hu⟩ | ⟨e, he⟩
    · have : u = t := Host.Outcome.next.inj (hu.exec_eq.symm.trans h)
      exact .inl (this ▸ hu)
    · exact .inr ⟨e, he, Host.Outcome.next.inj (h.symm.trans he.exec_eq)⟩
  · rintro (h | ⟨e, he, rfl⟩)
    · exact h.exec_eq
    · exact he.exec_eq

/-- Completing never touches the fault record. -/
theorem Completes.fault_eq (h : Completes s i t) : t.fault = s.fault := by cases h <;> rfl

/-- Completing changes the status for HLT only. -/
theorem Completes.status_eq (h : Completes s i t) : t.status = if i = .hlt then .halted else s.status := by
  cases h <;> rfl

/-- Completing changes the halted flag for HLT only. -/
theorem Completes.halted_eq (h : Completes s i t) : t.halted = if i = .hlt then true else s.halted := by
  cases h <;> rfl

end Sys2Proof.Machine
end

section
/-! What a step can do (R100), and the opcode byte behind a decoded instruction. -/

namespace Sys2Proof

/-- The operand bytes do not change which kind an instruction is. -/
@[simp] theorem Kind.instr_kind (k : Kind) (a b : Byte) : (k.instr a b).kind = k := by cases k <;> rfl

/-- Taking the operands of a kind gives an instruction of that kind. -/
theorem kind_of_decodeOperands {k : Kind} {n : Nat} {bytes rest : List Byte} {i : Instr}
    (h : decodeOperands k n bytes = .ok (i, rest)) : i.kind = k := by
  unfold decodeOperands at h
  split at h <;> cases h <;> exact k.instr_kind _ _

/-- What decodes begins with the opcode byte of the decoded instruction (R92, R98). -/
theorem head_of_decode {bytes rest : List Byte} {i : Instr} (h : decode bytes = .ok (i, rest)) :
    ∃ tail, bytes = i.kind.opcode :: tail := by
  cases bytes with
  | nil => cases h
  | cons ir tail =>
    refine ⟨tail, ?_⟩
    rcases hk : decodeOpcode ir with _ | k <;> simp only [decode, hk] at h
    · cases h
    · rw [kind_of_decodeOperands h, decodeOpcode_some hk]

end Sys2Proof

namespace Sys2Proof.Machine

variable {s t : State} {i : Instr} {rest : List Byte}

/-- The first byte a fetch sees is the one at the pc, inside memory. -/
theorem State.fetchBytes_eq_cons {ir : Byte} {tail : List Byte} (h : s.fetchBytes = ir :: tail) :
    s.pc.toNat ≤ 255 ∧ s.mem.read s.pc.toNat = ir := by
  unfold State.fetchBytes Memory.bytesFrom at h
  split at h
  · next hpc => exact ⟨Nat.le_of_lt_succ hpc, (List.cons.inj h).1⟩
  · cases h

/-- A fetched instruction has its opcode byte at the pc, inside memory (R100). -/
theorem opcode_of_fetch (h : decode s.fetchBytes = .ok (i, rest)) :
    s.pc.toNat ≤ 255 ∧ s.mem.read s.pc.toNat = i.kind.opcode := by
  obtain ⟨tail, htail⟩ := head_of_decode h
  exact State.fetchBytes_eq_cons htail

/-- A core that is not running ignores a step (R227). -/
theorem step_of_not_running (h : s.status ≠ .running) : step s = .next s := by
  unfold step
  split
  · contradiction
  · rfl
  · rfl

/-- The inversion of `step`: a core that is not running stays as it is; a running one takes the raise of its fetch, or
completes the fetched instruction, or takes that instruction's raise (R100, R227). -/
theorem step_cases (h : step s = .next t) :
    (s.status ≠ .running ∧ t = s) ∨
    s.status = .running ∧
      ((∃ e, decode s.fetchBytes = .error e ∧ t = s.raise (fetchRaise s.pc e)) ∨
       ∃ i rest, decode s.fetchBytes = .ok (i, rest) ∧
        (Completes s i t ∨ ∃ e, ExecRaises s.pc i e ∧ t = s.raise e)) := by
  by_cases hs : s.status = .running
  · rw [step_of_running hs] at h
    rcases s.fetch_cases with ⟨i, rest, hd, -, hc⟩ | ⟨e, hd, -, hc⟩
    · exact .inr ⟨hs, .inr ⟨i, rest, hd, exec_eq_next_iff.mp (hc.symm.trans h)⟩⟩
    · exact .inr ⟨hs, .inl ⟨e, hd, Host.Outcome.next.inj (h.symm.trans hc)⟩⟩
  · rw [step_of_not_running hs] at h
    exact .inl ⟨hs, (Host.Outcome.next.inj h).symm⟩

/-- The step of a running core takes a raise, or completes the instruction whose opcode byte is at the pc. -/
theorem step_running_cases (hs : s.status = .running) (h : step s = .next t) :
    (∃ e, t = s.raise e) ∨
    ∃ i, Completes s i t ∧ s.pc.toNat ≤ 255 ∧ s.mem.read s.pc.toNat = i.kind.opcode := by
  rcases step_cases h with ⟨hn, -⟩ | ⟨-, ⟨e, -, ht⟩ | ⟨i, rest, hd, hc | ⟨e, -, ht⟩⟩⟩
  · exact absurd hs hn
  · exact .inl ⟨_, ht⟩
  · exact .inr ⟨i, hc, opcode_of_fetch hd⟩
  · exact .inl ⟨e, ht⟩

/-- A step into `faulted` takes a raise and does nothing else (R188). -/
theorem step_faults (hs : s.status = .running) (h : step s = .next t) (ht : t.status = .faulted) :
    ∃ e, t = s.raise e := by
  rcases step_running_cases hs h with he | ⟨i, hc, -⟩
  · exact he
  · rw [hc.status_eq, hs] at ht
    split at ht <;> cases ht

/-- A state that a step leaves as it is, is where every run from it ends. -/
theorem run_of_step_eq_self {M : Host.Core} {s : M.State} (h : M.step s = .next s) (n : Nat) : M.run n s = .next s := by
  induction n with
  | zero => rfl
  | succ n ih => rw [Host.Core.run, h]; exact ih

end Sys2Proof.Machine
end

section
/-! The statements on the pc, on the registers read and written, and on the halted flag (10_state.md). -/

namespace Sys2Proof.Machine

variable {s t : State} {i : Instr} {r : RegIdx}

/-- All but HLT, CALL and RET go on after their operand bytes (R27). -/
theorem Completes.pc_toNat (h : Completes s i t) (hi : i.kind ∉ [.hlt, .call, .ret])
    (hpc : s.pc.toNat ≤ 254) : t.pc.toNat = s.pc.toNat + (operandCount i.kind.opcode + 1) := by
  cases h with
  | hlt | call | ret => simp [Instr.kind] at hi
  | _ => exact State.advance_pc_toNat _ hpc

/-- A well-formed instruction of the default advance goes on that many bytes further (R27). -/
theorem exec_pc_of_advance (hi : i.wellFormed = true) (hk : i.kind ∉ [.hlt, .call, .ret])
    (hpc : s.pc.toNat ≤ 254) :
    ∃ t, exec i s = .next t ∧ t.pc.toNat = s.pc.toNat + (operandCount i.kind.opcode + 1) := by
  obtain ⟨t, hc⟩ := exists_completes s hi fun h => by simp [h] at hk
  exact ⟨t, hc.exec_eq, hc.pc_toNat hk hpc⟩

/-- Settles O29: each clause reads the new pc off the way its instruction completes, or off the raise. -/
theorem programCounterChanges : Obligations.ProgramCounterChanges := by
  unfold Obligations.ProgramCounterChanges
  refine ⟨fun i s hi hk hpc => ?_, fun i s hi hk hpc => ?_, fun s => ⟨_, Completes.hlt.exec_eq, rfl⟩,
    fun a s ha hpc => ⟨_, (Completes.call ha hpc).exec_eq, State.jump_pc_toNat ..⟩,
    fun s => ⟨_, Completes.ret.exec_eq, State.jump_pc_toNat ..⟩, fun s t hs h ht => ?_⟩
  · have hadv : ∀ k ∈ [Kind.ldi, .add, .mul], operandCount k.opcode = 2 ∧ k ∉ [.hlt, .call, .ret] := by decide
    obtain ⟨hn, hk⟩ := hadv _ hk
    simpa only [hn] using exec_pc_of_advance hi hk (by omega)
  · have hadv : ∀ k ∈ [Kind.prn, .push, .pop], operandCount k.opcode = 1 ∧ k ∉ [.hlt, .call, .ret] := by decide
    obtain ⟨hn, hk⟩ := hadv _ hk
    simpa only [hn] using exec_pc_of_advance hi hk hpc
  · obtain ⟨e, rfl⟩ := step_faults hs h ht
    rfl

/-- A register the instruction is not listed as writing is not written (R24). -/
theorem Completes.reg_eq (h : Completes s i t) (hw : ¬ i.writesReg r) : t.reg r = s.reg r := by
  cases h with
  | ldi ha | add ha | mul ha => exact s.reg_setReg_ne _ _ fun e => hw (congrArg Fin.val e.symm)
  | prn | hlt => rfl
  | push | call | ret => exact s.reg_setReg_ne _ _ fun e => hw (congrArg Fin.val e.symm)
  | pop ha =>
    rw [State.advance_reg, State.reg_dropTop_ne _ fun e => hw (.inr (congrArg Fin.val e.symm))]
    exact s.reg_setReg_ne _ _ fun e => hw (.inl (congrArg Fin.val e.symm))

/-- A register the instruction neither reads nor writes can be changed before it or after it (R24). -/
theorem Completes.setReg (h : Completes s i t) (v : Byte) (hr : ¬ i.readsReg r) (hw : ¬ i.writesReg r) :
    Completes (s.setReg r v) i (t.setReg r v) := by
  cases h with
  | ldi ha =>
    have hra : r ≠ ⟨_, ha⟩ := fun e => hw (congrArg Fin.val e)
    rw [State.advance_setReg, s.setReg_comm _ _ hra.symm]
    exact .ldi ha
  | prn ha =>
    have hra : r ≠ ⟨_, ha⟩ := fun e => hr (congrArg Fin.val e)
    rw [← s.reg_setReg_ne r v hra]
    exact .prn ha
  | hlt => exact .hlt
  | add ha hb | mul ha hb =>
    have hra : r ≠ ⟨_, ha⟩ := fun e => hw (congrArg Fin.val e)
    have hrb : r ≠ ⟨_, hb⟩ := fun e => hr (.inr (congrArg Fin.val e))
    rw [← s.reg_setReg_ne r v hra, ← s.reg_setReg_ne r v hrb, State.advance_setReg, s.setReg_comm _ _ hra.symm]
    constructor
  | push ha =>
    have h7 : r ≠ 7 := fun e => hw (congrArg Fin.val e)
    have hra : r ≠ ⟨_, ha⟩ := fun e => hr (.inr (congrArg Fin.val e))
    have hc := Completes.push (s := s.setReg r v) ha
    rw [s.pushed_setReg v _ h7, s.setReg_decrement_reg v h7 hra] at hc
    exact hc
  | pop ha =>
    have h7 : r ≠ 7 := fun e => hw (.inr (congrArg Fin.val e))
    have hra : r ≠ ⟨_, ha⟩ := fun e => hw (.inl (congrArg Fin.val e))
    have hc := Completes.pop (s := s.setReg r v) ha
    rw [s.reg_setReg_ne _ _ h7, s.setReg_comm v _ hra, State.dropTop_setReg _ _ h7] at hc
    exact hc
  | call ha hpc =>
    have h7 : r ≠ 7 := fun e => hw (congrArg Fin.val e)
    have hra : r ≠ ⟨_, ha⟩ := fun e => hr (.inr (congrArg Fin.val e))
    have hc := Completes.call (s := s.setReg r v) ha hpc
    rw [s.pushed_setReg v _ h7, s.setReg_decrement_reg v h7 hra] at hc
    exact hc
  | ret =>
    have h7 : r ≠ 7 := fun e => hw (congrArg Fin.val e)
    have hc := Completes.ret (s := s.setReg r v)
    rw [s.reg_setReg_ne _ _ h7, s.dropTop_setReg _ h7] at hc
    exact hc

/-- LDI and POP, into a register other than 7, are what writes a register without reading it (R24). -/
theorem writes_unread (hr : ¬ i.readsReg r) (hw : i.writesReg r) :
    ∃ a : Byte, a.toNat = r.val ∧ ((∃ b, i = .ldi a b) ∨ (i = .pop a ∧ r ≠ 7)) := by
  cases i with
  | ldi a b => exact ⟨a, hw.symm, .inl ⟨b, rfl⟩⟩
  | prn | hlt => exact hw.elim
  | add a b | mul a b => exact absurd (.inl hw) hr
  | push a | call a => exact absurd (.inl hw) hr
  | ret => exact absurd hw hr
  | pop a =>
    rcases hw with hw | hw
    · exact ⟨a, hw.symm, .inr ⟨rfl, fun e => hr (congrArg Fin.val e)⟩⟩
    · exact absurd hw hr

/-- What the instruction overwrites without reading it can hold anything before (R24). -/
theorem exec_setReg_of_writes (v : Byte) (hr : ¬ i.readsReg r) (hw : i.writesReg r) :
    exec i (s.setReg r v) = exec i s := by
  obtain ⟨a, hra, hi⟩ := writes_unread hr hw
  have ha : a.toNat < 8 := hra ▸ r.isLt
  obtain rfl : r = ⟨a.toNat, ha⟩ := Fin.ext hra.symm
  rcases hi with ⟨b, rfl⟩ | ⟨rfl, h7⟩
  · rw [(Completes.ldi ha).exec_eq, (Completes.ldi ha).exec_eq, s.setReg_setReg_self]
  · rw [(Completes.pop ha).exec_eq, (Completes.pop ha).exec_eq, s.reg_setReg_ne _ _ h7, State.setReg_mem,
      s.setReg_setReg_self]

/-- Settles O30: an instruction completes by the registers the table lists, and a raise uses none. -/
theorem registersUsedAsListed : Obligations.RegistersUsedAsListed := by
  unfold Obligations.RegistersUsedAsListed
  refine ⟨fun i s t r h hw => ?_, fun i s r v hr hw => exec_setReg_of_writes v hr hw, fun i s r v hr hw => ?_⟩
  · rcases exec_eq_next_iff.mp h with hc | ⟨e, -, rfl⟩
    · exact hc.reg_eq hw
    · rfl
  · rcases completes_or_raises i s with ⟨t, hc⟩ | ⟨e, he⟩
    · exact ⟨t, hc.exec_eq, (hc.setReg v hr hw).exec_eq⟩
    · exact ⟨s.raise e, he.exec_eq, he.exec_eq (s := s.setReg r v)⟩

/-- A step keeps the flag, or it is a running core's HLT (R30). -/
theorem step_halted_cases (h : step s = .next t) :
    t.halted = s.halted ∨
    t.halted = true ∧ s.status = .running ∧ s.pc.toNat ≤ 255 ∧ s.mem.read s.pc.toNat = Kind.hlt.opcode := by
  by_cases hs : s.status = .running
  · rcases step_running_cases hs h with ⟨e, rfl⟩ | ⟨i, hc, hpc, hop⟩
    · exact .inl rfl
    · by_cases hi : i = .hlt
      · subst hi
        exact .inr ⟨by simp [hc.halted_eq], hs, hpc, hop⟩
      · exact .inl (by simp [hc.halted_eq, hi])
  · rw [step_of_not_running hs] at h
    exact .inl (Host.Outcome.next.inj h ▸ rfl)

/-- Settles O36: a step that changes the flag completes HLT, and a core with the flag set steps no further. -/
theorem haltedFlagOnlyByHlt : Obligations.HaltedFlagOnlyByHlt := by
  unfold Obligations.HaltedFlagOnlyByHlt
  refine ⟨rfl, fun s t h hs => ?_, fun s t h hs ht => ?_, fun s t h hs ht => ?_, fun s n hinv hs => ?_⟩
  · rcases step_halted_cases h with hkeep | ⟨ht, -⟩
    · exact hkeep.trans hs
    · exact ht
  · rcases step_halted_cases h with hkeep | ⟨-, hhlt⟩
    · simp [hkeep, hs] at ht
    · exact hhlt
  · obtain ⟨e, rfl⟩ := step_faults hs h ht
    rfl
  · have hstatus : s.status ≠ .running := by simp [hinv.haltedMatches.mpr hs]
    exact run_of_step_eq_self (M := core) (step_of_not_running hstatus) n

end Sys2Proof.Machine
end

section
/-! The two memory primitives: `MemRead` sees a state's cells only, and a write of one cell keeps its reads elsewhere. -/

namespace Sys2Proof.Machine

/-- States that agree in the cell at an address answer a read of it alike; above 255 both raise (R61, R65). -/
theorem State.memRead_congr {s t : State} {addr : Nat} (h : t.mem.read addr = s.mem.read addr) :
    t.memRead addr = s.memRead addr := by
  simp only [State.memRead, h]

/-- Settles O42: in range both primitives are plain access to the cells, so the laws of a cell's read after a write
apply. -/
theorem memoryCellsHoldWrites : Obligations.MemoryCellsHoldWrites := by
  unfold Obligations.MemoryCellsHoldWrites
  refine ⟨fun s addr v h => ⟨_, s.memWrite_of_lt v h, ?_, fun other hne => ?_, rfl⟩,
    fun addr h => State.reset.memRead_of_lt h, fun s addr h => ⟨_, s.memRead_of_lt h⟩⟩
  · rw [State.memRead_of_lt _ h, Memory.read_write_self]
  · exact State.memRead_congr (Memory.read_write_ne s.mem v hne)

end Sys2Proof.Machine
end

section
/-! The statements on the nine opcodes and the 247 Unknown bytes (30_encoding.md). -/

namespace Sys2Proof

variable {ir : Byte}

/-- A byte is Unknown exactly where it is none of the nine opcodes (R96, R98). -/
theorem decodeOpcode_eq_none_iff : decodeOpcode ir = none ↔ ∀ k : Kind, ir ≠ k.opcode := by
  constructor
  · rintro h k rfl
    cases h.symm.trans (decodeOpcode_opcode k)
  · exact fun h => Option.eq_none_iff_forall_ne_some.mpr fun k hk => h k (decodeOpcode_some hk)

/-- The bytes that decode, as numbers, are the nine opcodes, each once (R98). -/
theorem filter_isSome_decodeOpcode_perm :
    ((List.range 256).filter fun v => (decodeOpcode (BitVec.ofNat 8 v)).isSome).Perm
      (Kind.all.map fun k => k.opcode.toNat) := by
  refine (List.perm_ext_iff_of_nodup (List.nodup_range.filter _) (by decide)).mpr fun v => ?_
  simp only [List.mem_filter, List.mem_range, Option.isSome_iff_exists, List.mem_map]
  constructor
  · rintro ⟨hv, k, hk⟩
    refine ⟨k, by cases k <;> decide, ?_⟩
    rw [← decodeOpcode_some hk, BitVec.toNat_ofNat, Nat.mod_eq_of_lt hv]
  · rintro ⟨k, -, rfl⟩
    exact ⟨k.opcode.isLt, k, by simpa using decodeOpcode_opcode k⟩

/-- Settles O3: the table row by row, and for every kind that its opcode byte names it. -/
theorem nineOpcodesAsTabled : Obligations.NineOpcodesAsTabled := by
  unfold Obligations.NineOpcodesAsTabled
  exact ⟨by decide, fun k _ => ⟨k.instr_kind 0 0, decodeOpcode_opcode k⟩⟩

/-- Settles O4: a byte is Unknown or one of the nine opcodes, so 256 - 9 bytes are Unknown. -/
theorem opcodeDecodeIsTotal : Obligations.OpcodeDecodeIsTotal := by
  unfold Obligations.OpcodeDecodeIsTotal
  refine ⟨fun ir => ?_, ?_⟩
  · rcases h : decodeOpcode ir with _ | k
    · have hne := decodeOpcode_eq_none_iff.mp h
      exact .symm <| (if_neg (hne .ldi)).trans <| (if_neg (hne .prn)).trans <| (if_neg (hne .hlt)).trans <|
        (if_neg (hne .add)).trans <| (if_neg (hne .mul)).trans <| (if_neg (hne .push)).trans <|
        (if_neg (hne .pop)).trans <| (if_neg (hne .call)).trans <| if_neg (hne .ret)
    · rw [decodeOpcode_some h]
      cases k <;> rfl
  · have hall := List.length_eq_length_filter_add (l := List.range 256)
      fun v => (decodeOpcode (BitVec.ofNat 8 v)).isSome
    simp only [filter_isSome_decodeOpcode_perm.length_eq, Option.not_isSome, List.length_range] at hall
    have hnine : (Kind.all.map fun k => k.opcode.toNat).length = 9 := rfl
    omega

end Sys2Proof
end

section
/-! The step check by check (R100): which bytes a fetch finds, what they decode to, and the fault of a byte that is not
there. -/

namespace Sys2Proof

variable {ir a b : Byte} {k : Kind} {n : Nat} {bytes : List Byte}

/-- An Unknown opcode is refused whatever follows it (R96). -/
theorem decode_cons_of_none (h : decodeOpcode ir = none) : decode (ir :: bytes) = .error (.unknownInstruction ir) := by
  simp only [decode, h]

/-- After a defined opcode the decoder takes the operands of its kind (R100). -/
theorem decode_cons_of_some (h : decodeOpcode ir = some k) :
    decode (ir :: bytes) = decodeOperands k (operandCount ir) bytes := by
  simp only [decode, h]

/-- A kind with operands does not decode from no bytes. -/
theorem decodeOperands_nil (hn : 1 ≤ n) : decodeOperands k n [] = .error .noOperandA := by
  match n, hn with
  | 1, _ => rfl
  | _ + 2, _ => rfl

/-- Where as many of `a` and `b` as the kind's opcode counts come first, the kind decodes as with both: one with fewer
than two operands does not use the others (R92, R94). -/
theorem decodeOperands_of_take (h : [a, b].take (operandCount k.opcode) <+: bytes) :
    ∃ rest, decodeOperands k (operandCount k.opcode) bytes = .ok (k.instr a b, rest) := by
  obtain ⟨rest, rfl⟩ := h
  refine ⟨rest, ?_⟩
  cases k <;> rfl

end Sys2Proof

namespace Sys2Proof.Machine

variable {s : State} {k : Kind} {n : Nat}

/-- No memory byte is read at an address above 255. -/
theorem Memory.bytesFrom_of_ge (m : Memory) {addr : Nat} (h : 255 < addr) (n : Nat) : m.bytesFrom addr n = [] := by
  cases n with
  | zero => rfl
  | succ n => exact if_neg (Nat.not_lt.mpr h)

/-- The bytes read from an address inside memory begin with the one there. -/
theorem Memory.bytesFrom_of_le (m : Memory) {addr : Nat} (h : addr ≤ 255) (n : Nat) :
    m.bytesFrom addr (n + 1) = m.read addr :: m.bytesFrom (addr + 1) n :=
  if_pos (Nat.lt_succ_of_le h)

/-- Reading two bytes finds at least the first `n` of them, where those are inside memory (R40). -/
theorem Memory.take_isPrefix_bytesFrom (m : Memory) {addr : Nat} (hn : n ≤ 2) (h1 : 1 ≤ n → addr ≤ 255)
    (h2 : n = 2 → addr + 1 ≤ 255) : [m.read addr, m.read (addr + 1)].take n <+: m.bytesFrom addr 2 := by
  match n with
  | 0 => exact ⟨_, rfl⟩
  | 1 =>
    rw [m.bytesFrom_of_le (h1 le_rfl) 1]
    exact ⟨_, rfl⟩
  | 2 =>
    rw [m.bytesFrom_of_le (h1 (by decide)) 1, m.bytesFrom_of_le (h2 rfl) 0]
    exact ⟨[], rfl⟩

/-- With the opcode byte inside memory, a fetch sees it and then the two bytes after it, if they exist. -/
theorem State.fetchBytes_of_le (h : s.pc.toNat ≤ 255) :
    s.fetchBytes = s.mem.read s.pc.toNat :: s.mem.bytesFrom (s.pc.toNat + 1) 2 :=
  s.mem.bytesFrom_of_le h 2

/-- A fetch of a defined opcode takes its operands from the bytes after the pc that exist. -/
theorem State.decode_fetchBytes (hpc : s.pc.toNat ≤ 255) (hk : decodeOpcode (s.mem.read s.pc.toNat) = some k) :
    decode s.fetchBytes =
      decodeOperands k (operandCount (s.mem.read s.pc.toNat)) (s.mem.bytesFrom (s.pc.toNat + 1) 2) := by
  rw [State.fetchBytes_of_le hpc, decode_cons_of_some hk]

/-- The step of a running core whose fetch finds an instruction. -/
theorem step_of_decode_ok {i : Instr} {rest : List Byte} (hs : s.status = .running)
    (h : decode s.fetchBytes = .ok (i, rest)) : step s = exec i s := by
  rw [step_of_running hs, State.cycle_of_decode_ok h]

/-- The step of a running core whose fetch finds none. -/
theorem step_of_decode_error {e : DecodeError} (hs : s.status = .running) (h : decode s.fetchBytes = .error e) :
    step s = .next (s.raise (fetchRaise s.pc e)) := by
  rw [step_of_running hs, State.cycle_of_decode_error h]

/-- The raise for a missing byte `n` places after the pc records that byte's address (R65, R184). -/
theorem State.raise_addressOutOfRange (s : State) (n : Nat) :
    s.raise (.addressOutOfRange (s.pc.toNat + n)) = s.afterFault .addressOutOfRange (s.pc + BitVec.ofNat 9 n) := by
  simp [State.raise, State.afterFault, Raise.cause, Raise.info, BitVec.ofNat_add]

/-- R100: an opcode fetch beyond memory. -/
theorem step_of_pc_gt (hs : s.status = .running) (hpc : 255 < s.pc.toNat) :
    step s = .next (s.afterFault .addressOutOfRange s.pc) := by
  have hd : decode s.fetchBytes = .error .noOpcode := by
    rw [State.fetchBytes, Memory.bytesFrom_of_ge _ hpc]
    rfl
  rw [step_of_decode_error hs hd]
  exact congrArg _ (by simpa [fetchRaise] using s.raise_addressOutOfRange 0)

/-- R100: an Unknown opcode. -/
theorem step_of_unknown (hs : s.status = .running) (hpc : s.pc.toNat ≤ 255)
    (hk : decodeOpcode (s.mem.read s.pc.toNat) = none) :
    step s = .next (s.afterFault .unknownInstruction ((s.mem.read s.pc.toNat).setWidth 9)) := by
  have hd : decode s.fetchBytes = .error (.unknownInstruction (s.mem.read s.pc.toNat)) := by
    rw [State.fetchBytes_of_le hpc, decode_cons_of_none hk]
  exact step_of_decode_error hs hd

/-- R100: the read of a needed first operand beyond memory. -/
theorem step_of_operandA_gt (hs : s.status = .running) (hpc : s.pc.toNat ≤ 255)
    (hk : decodeOpcode (s.mem.read s.pc.toNat) = some k) (hn : 1 ≤ operandCount (s.mem.read s.pc.toNat))
    (ha : 255 < s.pc.toNat + 1) : step s = .next (s.afterFault .addressOutOfRange (s.pc + 1)) := by
  have hd := State.decode_fetchBytes hpc hk
  rw [Memory.bytesFrom_of_ge _ ha, decodeOperands_nil hn] at hd
  exact (step_of_decode_error hs hd).trans (congrArg _ (s.raise_addressOutOfRange 1))

/-- R100: the read of a needed second operand beyond memory. -/
theorem step_of_operandB_gt (hs : s.status = .running) (hpc : s.pc.toNat ≤ 255)
    (hk : decodeOpcode (s.mem.read s.pc.toNat) = some k) (hn : operandCount (s.mem.read s.pc.toNat) = 2)
    (ha : s.pc.toNat + 1 ≤ 255) (hb : 255 < s.pc.toNat + 2) :
    step s = .next (s.afterFault .addressOutOfRange (s.pc + 2)) := by
  have hd := State.decode_fetchBytes hpc hk
  rw [Memory.bytesFrom_of_le _ ha, Memory.bytesFrom_of_ge _ hb, hn] at hd
  exact (step_of_decode_error hs hd).trans (congrArg _ (s.raise_addressOutOfRange 2))

/-- R100: `Execute(kind, a, b)`, all needed operands being inside memory. -/
theorem step_of_operands_le (hs : s.status = .running) (hpc : s.pc.toNat ≤ 255)
    (hk : decodeOpcode (s.mem.read s.pc.toNat) = some k)
    (ha : 1 ≤ operandCount (s.mem.read s.pc.toNat) → s.pc.toNat + 1 ≤ 255)
    (hb : operandCount (s.mem.read s.pc.toNat) = 2 → s.pc.toNat + 2 ≤ 255) :
    step s = exec (k.instr (s.mem.read (s.pc.toNat + 1)) (s.mem.read (s.pc.toNat + 2))) s := by
  have hd := State.decode_fetchBytes hpc hk
  rw [decodeOpcode_some hk] at ha hb hd
  have hn : operandCount k.opcode ≤ 2 := by cases k <;> decide
  obtain ⟨rest, hops⟩ := decodeOperands_of_take (s.mem.take_isPrefix_bytesFrom hn ha hb)
  exact step_of_decode_ok hs (hd.trans hops)

/-- Settles O8: one lemma for each check of R100, and the inversion of a faulting step. -/
theorem stepFollowsTheCycle : Obligations.StepFollowsTheCycle := by
  unfold Obligations.StepFollowsTheCycle
  refine ⟨fun s => step_of_not_running, fun s => step_of_pc_gt, fun s => step_of_unknown,
    fun s k hs hpc hk => ⟨step_of_operandA_gt hs hpc hk, step_of_operandB_gt hs hpc hk,
      step_of_operands_le hs hpc hk⟩, fun s t hs h ht => ?_⟩
  obtain ⟨e, rfl⟩ := step_faults hs h ht
  rfl

end Sys2Proof.Machine
end

section
/-! The statements on LDI, PRN and HLT (40_load_output_halt.md), and what every instruction with operands shares with LDI
and PRN: the raise of its first bad index, and the step of its opcode byte near the end of memory. -/

namespace Sys2Proof.Machine

variable {s t : State} {k : Kind} {i : Instr} {a : Byte} {rest : List Byte}

/-- A first operand above 7 is the bad index on record, whatever the operands after it are (R103, R104). -/
theorem firstBadIndex_cons_of_ge (ha : 8 ≤ a.toNat) : firstBadIndex (a :: rest) = some a :=
  List.find?_cons_of_pos (decide_eq_true ha)

/-- The raise of the bad index that the checks of an instruction meet first changes the record and the status only
(R103, R188). -/
theorem exec_of_firstBadIndex (h : firstBadIndex i.registerOperands = some a) :
    exec i s = .next (s.afterFault .registerIndexOutOfRange (a.setWidth 9)) :=
  (ExecRaises.badOperand h).exec_eq

/-- The byte at the pc being the opcode of a kind, a fetch decodes that kind (R98). -/
theorem decodeOpcode_of_read_eq (hop : s.mem.read s.pc.toNat = k.opcode) :
    decodeOpcode (s.mem.read s.pc.toNat) = some k := by
  rw [hop, decodeOpcode_opcode]

/-- The opcode byte of a kind without operands is enough for its step, at every address (R94, R100). -/
theorem step_of_opcode_operandCount_zero (hn : operandCount k.opcode = 0) (hs : s.status = .running)
    (hop : s.mem.read s.pc.toNat = k.opcode) (hpc : s.pc.toNat ≤ 255) :
    step s = exec (k.instr (s.mem.read (s.pc.toNat + 1)) (s.mem.read (s.pc.toNat + 2))) s := by
  rw [← hop] at hn
  exact step_of_operands_le hs hpc (decodeOpcode_of_read_eq hop) (by simp [hn]) (by simp [hn])

/-- The step of a one-operand opcode: at 255 the operand read is beyond memory, below it the instruction executes (R100). -/
theorem step_of_opcode_operandCount_one (hn : operandCount k.opcode = 1) (hs : s.status = .running)
    (hop : s.mem.read s.pc.toNat = k.opcode) :
    (s.pc = 255 → step s = .next (s.afterFault .addressOutOfRange 256)) ∧
    (s.pc.toNat ≤ 254 →
      step s = exec (k.instr (s.mem.read (s.pc.toNat + 1)) (s.mem.read (s.pc.toNat + 2))) s) := by
  have hk := decodeOpcode_of_read_eq hop
  rw [← hop] at hn
  constructor
  · intro hpc
    rw [step_of_operandA_gt hs (by simp [hpc]) hk (by simp [hn]) (by simp [hpc]), hpc]
    rfl
  · exact fun hpc => step_of_operands_le hs (by omega) hk (fun _ => by omega) (by simp [hn])

/-- The step of a two-operand opcode: at 255 the read of `a`, at 254 that of `b` is beyond memory, below them the
instruction executes (R100). -/
theorem step_of_opcode_operandCount_two (hn : operandCount k.opcode = 2) (hs : s.status = .running)
    (hop : s.mem.read s.pc.toNat = k.opcode) :
    (s.pc = 254 ∨ s.pc = 255 → step s = .next (s.afterFault .addressOutOfRange 256)) ∧
    (s.pc.toNat ≤ 253 →
      step s = exec (k.instr (s.mem.read (s.pc.toNat + 1)) (s.mem.read (s.pc.toNat + 2))) s) := by
  have hk := decodeOpcode_of_read_eq hop
  rw [← hop] at hn
  refine ⟨?_, fun hpc => step_of_operands_le hs (by omega) hk (fun _ => by omega) (fun _ => by omega)⟩
  rintro (hpc | hpc)
  · rw [step_of_operandB_gt hs (by simp [hpc]) hk hn (by simp [hpc]) (by simp [hpc]), hpc]
    rfl
  · rw [step_of_operandA_gt hs (by simp [hpc]) hk (by simp [hn]) (by simp [hpc]), hpc]
    rfl

/-- A step of a running core that ends halted completes HLT: no raise and no other instruction sets that status (R132). -/
theorem read_pc_eq_hlt_of_step_halted (hs : s.status = .running) (h : step s = .next t) (ht : t.status = .halted) :
    s.mem.read s.pc.toNat = Kind.hlt.opcode := by
  rcases step_running_cases hs h with ⟨e, rfl⟩ | ⟨i, hc, -, hop⟩
  · cases ht
  · rw [hc.status_eq, hs] at ht
    split at ht
    · next hi => rwa [hi] at hop
    · cases ht

/-- Settles O15: LDI's completion, its one index check, and the step of a two-operand opcode. -/
theorem ldiLoadsImmediate : Obligations.LdiLoadsImmediate := by
  unfold Obligations.LdiLoadsImmediate
  exact ⟨fun _ _ _ ha _ => (Completes.ldi ha).exec_eq,
    fun _ _ _ ha => exec_of_firstBadIndex (firstBadIndex_cons_of_ge ha),
    fun _ => step_of_opcode_operandCount_two (k := .ldi) rfl⟩

/-- Settles O16: PRN's completion, its index check, and the step of a one-operand opcode. -/
theorem prnEmitsRegister : Obligations.PrnEmitsRegister := by
  unfold Obligations.PrnEmitsRegister
  exact ⟨fun _ _ ha _ => (Completes.prn ha).exec_eq,
    fun _ _ ha => exec_of_firstBadIndex (firstBadIndex_cons_of_ge ha),
    fun _ => step_of_opcode_operandCount_one (k := .prn) rfl⟩

/-- Settles O17: HLT's completion, at every address of its opcode byte, leaves a state that ignores a step. -/
theorem hltStopsCore : Obligations.HltStopsCore := by
  unfold Obligations.HltStopsCore
  refine ⟨fun s => Completes.hlt.exec_eq, fun s hs hpc hop => ?_, fun s t h => ?_,
    fun s t => read_pc_eq_hlt_of_step_halted⟩
  · rw [step_of_opcode_operandCount_zero (k := .hlt) rfl hs hop hpc]
    exact Completes.hlt.exec_eq
  · obtain rfl : s.halt = t := Host.Outcome.next.inj (Completes.hlt.exec_eq.symm.trans h)
    exact step_of_not_running (by simp)

end Sys2Proof.Machine
end

section
/-! The statements on ADD and MUL (41_alu.md). Both name registers with both operands, check `a` before `b`, and write the
ALU's result, which the statements reduce modulo 256 once more than a byte needs. -/

namespace Sys2Proof.Machine

variable {a b : Byte} {rest : List Byte}

/-- Where the first operand names a register and the second does not, the second is the bad index on record (R103, R104). -/
theorem firstBadIndex_cons_cons_of_lt_of_ge (ha : a.toNat < 8) (hb : 8 ≤ b.toNat) :
    firstBadIndex (a :: b :: rest) = some b := by
  have hskip : firstBadIndex (a :: b :: rest) = firstBadIndex (b :: rest) := List.find?_cons_of_neg (by simpa using ha)
  rw [hskip, firstBadIndex_cons_of_ge hb]

/-- A byte holds a number modulo 256 (R9), so reducing the number first makes no difference. -/
theorem byte_ofNat_mod_256 (n : Nat) : BitVec.ofNat 8 (n % 256) = BitVec.ofNat 8 n :=
  BitVec.eq_of_toNat_eq (by simp)

/-- Settles O18: ADD's completion with the 8-bit sum, its two index checks in order, and the step of a two-operand
opcode. -/
theorem addAddsModulo256 : Obligations.AddAddsModulo256 := by
  unfold Obligations.AddAddsModulo256
  refine ⟨fun a b s ha hb _ => ?_,
    fun _ _ _ ha => exec_of_firstBadIndex (firstBadIndex_cons_of_ge ha),
    fun _ _ _ ha hb => exec_of_firstBadIndex (firstBadIndex_cons_cons_of_lt_of_ge ha hb),
    fun _ => step_of_opcode_operandCount_two (k := .add) rfl⟩
  simp only [byte_ofNat_mod_256, BitVec.ofNat_add, BitVec.ofNat_toNat, BitVec.setWidth_eq]
  exact (Completes.add ha hb).exec_eq

/-- Settles O19: MUL's completion with the 8-bit product, its two index checks in order, and the step of a two-operand
opcode. -/
theorem mulMultipliesModulo256 : Obligations.MulMultipliesModulo256 := by
  unfold Obligations.MulMultipliesModulo256
  refine ⟨fun a b s ha hb _ => ?_,
    fun _ _ _ ha => exec_of_firstBadIndex (firstBadIndex_cons_of_ge ha),
    fun _ _ _ ha hb => exec_of_firstBadIndex (firstBadIndex_cons_cons_of_lt_of_ge ha hb),
    fun _ => step_of_opcode_operandCount_two (k := .mul) rfl⟩
  simp only [byte_ofNat_mod_256, BitVec.ofNat_mul, BitVec.ofNat_toNat, BitVec.setWidth_eq]
  exact (Completes.mul ha hb).exec_eq

end Sys2Proof.Machine
end

section
/-! The statement on RET (43_call_return.md). RET has no operand, so it neither checks an index nor reads past its opcode
byte: both clauses are its one completion. -/

namespace Sys2Proof.Machine

/-- Settles O27: RET's completion, in every state and at every address of its opcode byte. -/
theorem retPopsProgramCounter : Obligations.RetPopsProgramCounter := by
  unfold Obligations.RetPopsProgramCounter
  refine ⟨fun s => Completes.ret.exec_eq, fun s hs hpc hop => ?_⟩
  rw [step_of_opcode_operandCount_zero (k := .ret) rfl hs hop hpc]
  exact Completes.ret.exec_eq

end Sys2Proof.Machine
end

section
/-! Encoding and decoding are inverse to each other (30_encoding.md): the operand bytes alone first, then behind the opcode
byte. -/

namespace Sys2Proof

variable {k : Kind} {i : Instr} {bytes rest : List Byte}

/-- The operand bytes of an instruction, whatever follows, are read back as that instruction (R92, R94). -/
theorem decodeOperands_operands (i : Instr) (rest : List Byte) :
    decodeOperands i.kind (operandCount i.kind.opcode) (i.operands ++ rest) = .ok (i, rest) := by
  rw [operandCount_kind]
  cases i <;> rfl

/-- Of two bytes an instruction has as operands as many as its opcode counts (R91, R92). -/
theorem operands_instr (k : Kind) (a b : Byte) : (k.instr a b).operands = [a, b].take (operandCount k.opcode) := by
  cases k <;> rfl

/-- What is taken as the operands of a kind are the operand bytes of the answered instruction (R92, R94). -/
theorem eq_of_decodeOperands (h : decodeOperands k (operandCount k.opcode) bytes = .ok (i, rest)) :
    bytes = i.operands ++ rest := by
  unfold decodeOperands at h
  split at h
  case h_1 hn | h_2 hn | h_3 hn =>
    cases h
    simp [operands_instr, hn]
  case h_4 | h_5 => cases h

/-- Settles O1: the opcode byte names the kind, and its operands are read back. -/
theorem decodeOfEncodeIsIdentity : Obligations.DecodeOfEncodeIsIdentity := by
  unfold Obligations.DecodeOfEncodeIsIdentity
  intro i rest
  calc decode (encode i ++ rest)
      = decodeOperands i.kind (operandCount i.kind.opcode) (i.operands ++ rest) :=
        decode_cons_of_some (decodeOpcode_opcode i.kind)
    _ = .ok (i, rest) := decodeOperands_operands i rest

/-- Settles O2: the first byte is the opcode of the kind the decoder names, and what it takes after that are the
operands. -/
theorem decodeAcceptsOnlyEncodings : Obligations.DecodeAcceptsOnlyEncodings := by
  unfold Obligations.DecodeAcceptsOnlyEncodings
  intro bytes i rest h
  obtain ⟨tail, rfl⟩ := head_of_decode h
  rw [decode_cons_of_some (decodeOpcode_opcode i.kind)] at h
  exact congrArg (i.kind.opcode :: ·) (eq_of_decodeOperands h)

/-- Settles O5: the eight words, each evaluated. -/
theorem handWrittenWordsDecode : Obligations.HandWrittenWordsDecode := by
  unfold Obligations.HandWrittenWordsDecode
  decide

end Sys2Proof
end

section
/-! The faults of a step in the fixed order of R187: `firstFault`, read off memory, against what the step does. -/

namespace Sys2Proof

variable {ir a b : Byte} {k : Kind}

/-- Bits 7:6 of a byte are its value divided by 64 (R91). -/
theorem operandCount_eq_div (ir : Byte) : operandCount ir = ir.toNat / 64 := by
  have hlt : ir.toNat < 256 := ir.isLt
  have hmask : ir.toNat / 64 &&& 2 ^ 2 - 1 = ir.toNat / 64 % 2 ^ 2 := Nat.and_two_pow_sub_one_eq_mod _ 2
  simp only [operandCount, BitVec.toNat_and, BitVec.toNat_ushiftRight, Nat.shiftRight_eq_div_pow]
  exact hmask.trans (Nat.mod_eq_of_lt (by omega))

/-- The nine literals of R95 are the opcodes. -/
theorem decodeOpcode_eq_none_iff_notMem :
    decodeOpcode ir = none ↔ ir ∉ [0x82#8, 0x47#8, 0x01#8, 0xA0#8, 0xA2#8, 0x45#8, 0x46#8, 0x50#8, 0x11#8] := by
  have hall : [0x82#8, 0x47#8, 0x01#8, 0xA0#8, 0xA2#8, 0x45#8, 0x46#8, 0x50#8, 0x11#8] = Kind.all.map Kind.opcode := rfl
  have hmem (k : Kind) : k ∈ Kind.all := by cases k <;> decide
  rw [decodeOpcode_eq_none_iff, hall]
  simp only [List.mem_map, not_exists, not_and]
  exact ⟨fun h k _ e => h k e.symm, fun h k e => h k (hmem k) e.symm⟩

/-- Every kind with operands checks the first as a register index (R94, R103). -/
theorem registerOperands_instr (hn : 1 ≤ operandCount k.opcode) :
    ∃ rest, (k.instr a b).registerOperands = a :: rest := by
  cases k with
  | hlt | ret => exact absurd hn (by decide)
  | _ => exact ⟨_, rfl⟩

/-- The two opcodes of the ALU check both operands (R94, R103). -/
theorem registerOperands_instr_of_alu (hk : k.opcode ∈ [0xA0#8, 0xA2#8]) :
    operandCount k.opcode = 2 ∧ (k.instr a b).registerOperands = [a, b] := by
  cases k with
  | add | mul => exact ⟨rfl, rfl⟩
  | _ => exact absurd hk (by decide)

/-- An instruction is well-formed where the operands it checks are: `a` if it has one, `b` for ADD and MUL (R94, R103). -/
theorem wellFormed_instr (ha : 1 ≤ operandCount k.opcode → a.toNat < 8)
    (hb : k.opcode ∈ [0xA0#8, 0xA2#8] → b.toNat < 8) : (k.instr a b).wellFormed = true := by
  rw [Instr.wellFormed_iff]
  cases k with
  | hlt | ret => exact List.forall_mem_nil _
  | add | mul => exact List.forall_mem_cons.mpr ⟨ha (by decide), List.forall_mem_singleton.mpr (hb (by decide))⟩
  | _ => exact List.forall_mem_singleton.mpr (ha (by decide))

end Sys2Proof

namespace Sys2Proof.Machine

variable {s t : State} {k : Kind} {r e : Raise} {i : Instr} {ir a b : Byte}

/-- The ways a step of a running core can fault: one constructor for each check of a fetch (R100), and the raise of the
instruction whose bytes have been found. -/
inductive StepRaises (s : State) : Raise → Prop
  | opcode (hpc : 255 < s.pc.toNat) : StepRaises s (.addressOutOfRange s.pc.toNat)
  | unknown (hpc : s.pc.toNat ≤ 255) (hk : decodeOpcode (s.mem.read s.pc.toNat) = none) :
    StepRaises s (.unknownInstruction (s.mem.read s.pc.toNat))
  | operandA {k : Kind} (hk : decodeOpcode (s.mem.read s.pc.toNat) = some k)
    (hn : 1 ≤ operandCount (s.mem.read s.pc.toNat)) (hpc : s.pc.toNat = 255) :
    StepRaises s (.addressOutOfRange (s.pc.toNat + 1))
  | operandB {k : Kind} (hk : decodeOpcode (s.mem.read s.pc.toNat) = some k)
    (hn : operandCount (s.mem.read s.pc.toNat) = 2) (hpc : s.pc.toNat = 254) :
    StepRaises s (.addressOutOfRange (s.pc.toNat + 2))
  | exec {k : Kind} {e : Raise} (hk : decodeOpcode (s.mem.read s.pc.toNat) = some k)
    (hpc : s.pc.toNat + operandCount (s.mem.read s.pc.toNat) ≤ 255)
    (he : ExecRaises s.pc (k.instr (s.mem.read (s.pc.toNat + 1)) (s.mem.read (s.pc.toNat + 2))) e) :
    StepRaises s e

/-- The step of a running core completes: the instruction whose bytes, inside memory, are at the pc does. -/
inductive StepCompletes (s t : State) : Prop
  | intro (k : Kind) (hk : decodeOpcode (s.mem.read s.pc.toNat) = some k)
    (hpc : s.pc.toNat + operandCount (s.mem.read s.pc.toNat) ≤ 255)
    (hc : Completes s (k.instr (s.mem.read (s.pc.toNat + 1)) (s.mem.read (s.pc.toNat + 2))) t)

/-- No opcode has more than two operands (R95). -/
theorem operandCount_le_two (hk : decodeOpcode ir = some k) : operandCount ir ≤ 2 := by
  rw [decodeOpcode_some hk]
  cases k <;> decide

/-- Executing what stands at the pc is the step, where its bytes are inside memory (R100). -/
theorem step_eq_exec (hs : s.status = .running) (hk : decodeOpcode (s.mem.read s.pc.toNat) = some k)
    (hpc : s.pc.toNat + operandCount (s.mem.read s.pc.toNat) ≤ 255) :
    step s = exec (k.instr (s.mem.read (s.pc.toNat + 1)) (s.mem.read (s.pc.toNat + 2))) s :=
  step_of_operands_le hs (by omega) hk (fun _ => by omega) (fun _ => by omega)

/-- What `StepRaises` says, `step` raises. -/
theorem StepRaises.step_eq (h : StepRaises s r) (hs : s.status = .running) : step s = .next (s.raise r) := by
  cases h with
  | opcode hpc =>
    rw [step_of_pc_gt hs hpc]
    exact congrArg _ (by simpa using (s.raise_addressOutOfRange 0).symm)
  | unknown hpc hk => exact step_of_unknown hs hpc hk
  | operandA hk hn hpc =>
    rw [step_of_operandA_gt hs (by omega) hk hn (by omega)]
    exact congrArg _ (s.raise_addressOutOfRange 1).symm
  | operandB hk hn hpc =>
    rw [step_of_operandB_gt hs (by omega) hk hn (by omega) (by omega)]
    exact congrArg _ (s.raise_addressOutOfRange 2).symm
  | exec hk hpc he => rw [step_eq_exec hs hk hpc, he.exec_eq]

/-- What `StepCompletes` says, `step` does. -/
theorem StepCompletes.step_eq (h : StepCompletes s t) (hs : s.status = .running) : step s = .next t := by
  obtain ⟨k, hk, hpc, hc⟩ := h
  rw [step_eq_exec hs hk hpc, hc.exec_eq]

/-- The step can complete where the bytes at the pc are inside memory and pass the checks of their instruction: its
register operands, and CALL's return address (R103, R160). -/
theorem exists_stepCompletes (hk : decodeOpcode (s.mem.read s.pc.toNat) = some k)
    (hpc : s.pc.toNat + operandCount (s.mem.read s.pc.toNat) ≤ 255)
    (ha : 1 ≤ operandCount (s.mem.read s.pc.toNat) → (s.mem.read (s.pc.toNat + 1)).toNat ≤ 7)
    (hb : s.mem.read s.pc.toNat ∈ [0xA0#8, 0xA2#8] → (s.mem.read (s.pc.toNat + 2)).toNat ≤ 7)
    (hc : s.mem.read s.pc.toNat = 0x50#8 → s.pc.toNat ≤ 253) : ∃ t, StepCompletes s t := by
  have hop := decodeOpcode_some hk
  have hwf := wellFormed_instr (k := k) (fun h => Nat.lt_succ_of_le (ha (hop ▸ h)))
    (fun h => Nat.lt_succ_of_le (hb (hop ▸ h)))
  obtain ⟨t, ht⟩ := exists_completes s hwf fun hcall => by
    rw [Kind.instr_kind] at hcall
    exact hc (hop.trans (congrArg Kind.opcode hcall))
  exact ⟨t, k, hk, hpc, ht⟩

/-- The fixed order of R187 names a fault that the step can take, or none where the step can complete. -/
theorem firstFault_cases (s : State) :
    (∃ r, s.firstFault = some r ∧ StepRaises s r) ∨ (s.firstFault = none ∧ ∃ t, StepCompletes s t) := by
  unfold State.firstFault
  simp only [← operandCount_eq_div, ← decodeOpcode_eq_none_iff_notMem]
  split_ifs with hpc hk hA hB ha hb hc
  · exact .inl ⟨_, rfl, .opcode hpc⟩
  · exact .inl ⟨_, rfl, .unknown (Nat.not_lt.mp hpc) hk⟩
  all_goals
    obtain ⟨k, hk⟩ := Option.ne_none_iff_exists'.mp hk
    have hop := decodeOpcode_some hk
    have hn := operandCount_le_two hk
  · exact .inl ⟨_, rfl, .operandA hk hA.1 (by omega)⟩
  · exact .inl ⟨_, rfl, .operandB hk (by omega) (by omega)⟩
  · obtain ⟨rest, hrest⟩ := registerOperands_instr (hop ▸ ha.1)
    refine .inl ⟨_, rfl, .exec hk (by omega) (.badOperand ?_)⟩
    rw [hrest, firstBadIndex_cons_of_ge ha.2]
  · obtain ⟨hn2, hab⟩ := registerOperands_instr_of_alu (hop ▸ hb.1)
    rw [← hop] at hn2
    refine .inl ⟨_, rfl, .exec hk (by omega) (.badOperand ?_)⟩
    rw [hab, firstBadIndex_cons_cons_of_lt_of_ge (by omega) hb.2]
  · obtain rfl : k = .call := Option.some.inj (hk.symm.trans (hc.1 ▸ decodeOpcode_opcode .call))
    have hn1 : operandCount (s.mem.read s.pc.toNat) = 1 := hop ▸ rfl
    exact .inl ⟨_, rfl, .exec hk (by omega) (.returnAddress (by omega) (by omega))⟩
  · refine .inr ⟨rfl, exists_stepCompletes hk (by omega) (fun h => ?_) (fun h => ?_) (fun h => ?_)⟩
    · omega
    · exact Nat.not_lt.mp fun hlt => hb ⟨h, hlt⟩
    · exact Nat.not_lt.mp fun hlt => hc ⟨h, by omega⟩

end Sys2Proof.Machine
end

section
/-! The statements on the cycle (30_encoding.md section 5, 60_exceptions.md section 3). -/

namespace Sys2Proof.Machine

variable {s t : State} {k : Kind} {r e : Raise} {i : Instr}

/-- What a step of a running core does, by the fixed order of faults (R187). -/
theorem step_running_iff (hs : s.status = .running) : step s = .next t ↔
    (∃ r, s.firstFault = some r ∧ StepRaises s r ∧ t = s.raise r) ∨ (s.firstFault = none ∧ StepCompletes s t) := by
  constructor
  · intro h
    rcases firstFault_cases s with ⟨r, hr, hraise⟩ | ⟨hnone, u, hc⟩
    · exact .inl ⟨r, hr, hraise, Host.Outcome.next.inj (h.symm.trans (hraise.step_eq hs))⟩
    · obtain rfl : u = t := Host.Outcome.next.inj ((hc.step_eq hs).symm.trans h)
      exact .inr ⟨hnone, hc⟩
  · rintro (⟨r, -, hraise, rfl⟩ | ⟨-, hc⟩)
    · exact hraise.step_eq hs
    · exact hc.step_eq hs

/-- What a step of a core that is not running answers is the state it was in (R227). -/
theorem eq_of_step_of_not_running (hs : s.status ≠ .running) (h : step s = .next t) : s = t :=
  Host.Outcome.next.inj ((step_of_not_running hs).symm.trans h)

/-- Settles O6: the bytes of the fetch decide the step. -/
theorem stepRunsDecodedInstruction : Obligations.StepRunsDecodedInstruction := by
  unfold Obligations.StepRunsDecodedInstruction
  exact fun s i rest hs hd => step_of_decode_ok hs hd

/-- A kind with the operand bytes of an instruction of that kind is the instruction: the bytes that it does not have are
not used (R92, R94). -/
theorem instr_of_operands {a b : Byte} (i : Instr) (ha : ∀ h : 0 < i.operands.length, a = i.operands[0])
    (hb : ∀ h : 1 < i.operands.length, b = i.operands[1]) : i.kind.instr a b = i := by
  cases i with
  | hlt | ret => rfl
  | ldi | add | mul =>
    cases ha Nat.zero_lt_two
    cases hb Nat.one_lt_two
    rfl
  | prn | push | pop | call =>
    cases ha Nat.zero_lt_one
    rfl

/-- Settles O7: the first byte of the encoding names the kind, the others are its operands, all inside memory. -/
theorem stepRunsInstructionInMemory : Obligations.StepRunsInstructionInMemory := by
  unfold Obligations.StepRunsInstructionInMemory
  intro s i hs hlen henc
  have hl : (encode i).length = i.operands.length + 1 := rfl
  have hop : s.mem.read s.pc.toNat = i.kind.opcode := henc 0 (by omega)
  have hn : operandCount (s.mem.read s.pc.toNat) = i.operands.length := hop ▸ operandCount_kind i
  have hi : i.kind.instr (s.mem.read (s.pc.toNat + 1)) (s.mem.read (s.pc.toNat + 2)) = i :=
    instr_of_operands i (fun h => henc 1 (by omega)) (fun h => henc 2 (by omega))
  rw [step_eq_exec hs (decodeOpcode_of_read_eq hop) (by omega), hi]

/-- Settles O9: a status that is not running ends the step. -/
theorem stoppedCoreIgnoresStep : Obligations.StoppedCoreIgnoresStep := by
  unfold Obligations.StoppedCoreIgnoresStep
  rintro s (hs | hs) <;> exact step_of_not_running (by simp [hs])

/-- Settles O10: a byte that is none of the nine literals does not decode. -/
theorem unknownOpcodeStopsAndReports : Obligations.UnknownOpcodeStopsAndReports := by
  unfold Obligations.UnknownOpcodeStopsAndReports
  exact fun s hs hpc hop => step_of_unknown hs hpc (decodeOpcode_eq_none_iff_notMem.mpr hop)

/-- Completing does not enter `faulted`. -/
theorem Completes.status_ne_faulted (h : Completes s i t) (hs : s.status ≠ .faulted) : t.status ≠ .faulted := by
  rw [h.status_eq]
  split
  · decide
  · exact hs

/-- Settles O11: the first fault of the order is the raise the step takes; without one the instruction at the pc
completes. -/
theorem firstFaultWins : Obligations.FirstFaultWins := by
  unfold Obligations.FirstFaultWins
  intro s hs
  rcases firstFault_cases s with ⟨r, hr, hraise⟩ | ⟨hnone, t, hc⟩
  · rw [hr]
    exact ⟨fun r' h => Option.some.inj h ▸ hraise.step_eq hs, fun h => nomatch h⟩
  · refine ⟨fun r h => absurd (hnone.symm.trans h) nofun, fun _ => ⟨t, hc.step_eq hs, ?_⟩⟩
    obtain ⟨k, -, -, hc⟩ := hc
    exact ⟨hc.status_ne_faulted (by simp [hs]), hc.fault_eq⟩

/-- Every instruction answers a next state. -/
theorem exists_exec_eq_next (i : Instr) (s : State) : ∃ t, exec i s = .next t := by
  rcases completes_or_raises i s with ⟨t, hc⟩ | ⟨e, he⟩
  · exact ⟨t, hc.exec_eq⟩
  · exact ⟨_, he.exec_eq⟩

/-- Every step answers a next state. -/
theorem exists_step_eq_next (s : State) : ∃ t, step s = .next t := by
  by_cases hs : s.status = .running
  · rcases firstFault_cases s with ⟨r, -, hraise⟩ | ⟨-, t, hc⟩
    · exact ⟨_, hraise.step_eq hs⟩
    · exact ⟨t, hc.step_eq hs⟩
  · exact ⟨s, step_of_not_running hs⟩

/-- Settles O12: a raise is a next state too. -/
theorem everyStepAnswersNext : Obligations.EveryStepAnswersNext := by
  unfold Obligations.EveryStepAnswersNext
  exact ⟨exists_step_eq_next, exists_exec_eq_next⟩

/-- Settles O13: a well-formed instruction completes, and completing keeps the record and, but for HLT, the status. -/
theorem wellFormedInstructionCompletes : Obligations.WellFormedInstructionCompletes := by
  unfold Obligations.WellFormedInstructionCompletes
  intro i s hi hc
  obtain ⟨t, ht⟩ := exists_completes s hi hc
  exact ⟨t, ht.exec_eq, ht.fault_eq, ht.status_eq⟩

/-- Settles O14: an instruction that is not well-formed has a first bad index, which it raises. -/
theorem illFormedInstructionRaises : Obligations.IllFormedInstructionRaises := by
  unfold Obligations.IllFormedInstructionRaises
  intro i s hi
  have hbad : firstBadIndex i.registerOperands ≠ none := fun h => by simp [firstBadIndex_eq_none.mp h] at hi
  obtain ⟨operand, hop⟩ := Option.ne_none_iff_exists'.mp hbad
  exact ⟨operand, hop, exec_of_firstBadIndex hop⟩

end Sys2Proof.Machine
end

section
/-! The statements on the status and the fault record (10_state.md, 60_exceptions.md), and the invariant of every
reachable state. -/

namespace Sys2Proof.Machine

variable {s t : State} {k : Kind} {r e : Raise} {i : Instr}

/-- The ALU's own raise is no fault of an instruction: ADD and MUL give the ALU an operation it has (R143). -/
theorem ExecRaises.cause_ne {pc : PcWord} (h : ExecRaises pc i e) : e.cause ≠ .unsupportedALUOperation := by
  cases h <;> nofun

/-- No check of the fetch raises UnsupportedALUOperation either (R143). -/
theorem StepRaises.cause_ne (h : StepRaises s r) : r.cause ≠ .unsupportedALUOperation := by
  cases h with
  | exec _ _ he => exact he.cause_ne
  | _ => nofun

/-- Settles O22: of what a step can do, a raise has another cause, and all else leaves the record. -/
theorem coreNeverRaisesUnsupportedAlu : Obligations.CoreNeverRaisesUnsupportedAlu := by
  unfold Obligations.CoreNeverRaisesUnsupportedAlu
  intro s t h hcause
  by_cases hs : s.status = .running
  · rcases (step_running_iff hs).mp h with ⟨r, -, hraise, rfl⟩ | ⟨-, k, -, -, hc⟩
    · exact absurd hcause hraise.cause_ne
    · rwa [hc.fault_eq] at hcause
  · obtain rfl := eq_of_step_of_not_running hs h
    exact hcause

/-- Settles O37: a running core takes a fault of the order, or completes an instruction, which only for HLT changes the
status. -/
theorem statusTransitions : Obligations.StatusTransitions := by
  unfold Obligations.StatusTransitions
  intro s t h
  by_cases hs : s.status = .running
  · refine ⟨?_, fun hn => absurd hs hn⟩
    rcases (step_running_iff hs).mp h with ⟨r, hr, -, rfl⟩ | ⟨-, k, -, -, hc⟩
    · exact .inr (.inr ⟨hs, rfl, by simp [hr]⟩)
    · have hstatus := hc.status_eq
      split at hstatus
      · exact .inr (.inl ⟨hs, hstatus, read_pc_eq_hlt_of_step_halted hs h hstatus⟩)
      · exact .inl hstatus
  · obtain rfl := eq_of_step_of_not_running hs h
    exact ⟨.inl rfl, fun _ => rfl⟩

/-- Every raise has a cause (R180). -/
theorem Raise.cause_ne_noFault (r : Raise) : r.cause ≠ .noFault := by
  cases r <;> nofun

/-- Settles O38: only a raise enters `faulted`, and only a raise writes the record. -/
theorem faultEntryIsPrecise : Obligations.FaultEntryIsPrecise := by
  unfold Obligations.FaultEntryIsPrecise
  intro s t h
  by_cases hs : s.status = .running
  · rcases (step_running_iff hs).mp h with ⟨r, -, -, rfl⟩ | ⟨-, k, -, -, hc⟩
    · exact ⟨fun _ _ => ⟨rfl, r.cause_ne_noFault⟩, fun _ hf => by simp [hs] at hf, fun hn => absurd rfl hn⟩
    · exact ⟨fun _ hf => absurd hf (hc.status_ne_faulted (by simp [hs])), fun _ _ => hc.fault_eq, fun _ => hc.fault_eq⟩
  · obtain rfl := eq_of_step_of_not_running hs h
    exact ⟨fun hr => absurd hr hs, fun _ _ => rfl, fun _ => rfl⟩

/-- A raise in a running core keeps the invariant where its record fits. -/
theorem State.Inv.raise (h : s.Inv) (hs : s.status = .running) (hfits : (s.raise r).FaultRecordFits) :
    (s.raise r).Inv where
  memWf := h.memWf
  pcInRange := h.pcInRange
  haltedMatches := by simp [← h.haltedMatches, hs]
  faultFits := hfits

/-- A bad index is above 7 (R103). -/
theorem firstBadIndex_ge {operands : List Byte} {operand : Byte} (h : firstBadIndex operands = some operand) :
    8 ≤ operand.toNat := by
  simpa using List.find?_some h

/-- The raise of an instruction inside memory records a bad index, or the return address 256 (R103, R160). -/
theorem ExecRaises.recordFits (h : ExecRaises s.pc i e) (hpc : s.pc.toNat + operandCount i.kind.opcode ≤ 255) :
    (s.raise e).FaultRecordFits := by
  refine ⟨rfl, ?_⟩
  cases h with
  | @badOperand _ operand hbad =>
    have hge : 8 ≤ operand.toNat := firstBadIndex_ge hbad
    have hlt : operand.toNat < 256 := operand.isLt
    simp only [State.raise_fault, Raise.cause, Raise.info, BitVec.toNat_setWidth]
    omega
  | returnAddress _ hgt =>
    simp only [Instr.kind, operandCount_opcode] at hpc
    simp only [State.raise_fault, Raise.cause, Raise.info, BitVec.toNat_ofNat]
    omega

/-- The record of a fault entry fits the faulting instruction (R180 to R184). -/
theorem StepRaises.recordFits (h : StepRaises s r) (hle : s.pc.toNat ≤ 256) : (s.raise r).FaultRecordFits := by
  cases h with
  | unknown hpc hk =>
    refine ⟨rfl, hpc, ?_, hk⟩
    simp only [State.raise_fault, State.raise_mem, State.raise_pc, Raise.info, BitVec.toNat_setWidth]
    omega
  | exec hk hpc he =>
    rw [decodeOpcode_some hk] at hpc
    exact he.recordFits (by rwa [Kind.instr_kind])
  | opcode hpc | operandA _ _ hpc | operandB _ _ hpc =>
    refine ⟨rfl, ?_⟩
    simp only [State.raise_fault, Raise.cause, Raise.info, BitVec.toNat_ofNat]
    omega

/-- The store of PUSH or CALL, at a byte's address, keeps the canonical form; nothing else writes memory. -/
theorem Completes.mem_wf (h : Completes s i t) (hwf : s.mem.wf) : t.mem.wf := by
  cases h with
  | push | call => exact Memory.write_wf hwf _ (s.reg 7 - 1).isLt
  | _ => exact hwf

/-- An instruction inside memory leaves the pc at most 256 (R28). -/
theorem Completes.pc_le (h : Completes s i t) (hpc : s.pc.toNat + operandCount i.kind.opcode ≤ 255) :
    t.pc.toNat ≤ 256 := by
  have hn : ∀ k : Kind, k ∉ [.hlt, .call, .ret] → 1 ≤ operandCount k.opcode := by intro k; cases k <;> decide
  by_cases hk : i.kind ∈ [.hlt, .call, .ret]
  · cases h with
    | hlt => exact Nat.le_succ_of_le hpc
    | call | ret => exact (State.jump_pc_toNat ..).trans_le (Nat.le_of_lt (BitVec.isLt _))
    | _ => exact absurd hk (by simp [Instr.kind])
  · have hpos := hn _ hk
    have hadv := h.pc_toNat hk (by omega)
    omega

/-- Completing an instruction inside memory keeps the invariant. -/
theorem Completes.inv (h : Completes s i t) (hinv : s.Inv) (hs : s.status = .running)
    (hpc : s.pc.toNat + operandCount i.kind.opcode ≤ 255) : t.Inv where
  memWf := h.mem_wf hinv.memWf
  pcInRange := h.pc_le hpc
  haltedMatches := by
    rw [h.status_eq, h.halted_eq]
    split
    · simp
    · exact hinv.haltedMatches
  faultFits := by
    have hnone : s.fault = FaultRecord.none := by simpa [State.FaultRecordFits, hs] using hinv.faultFits
    by_cases hi : i = .hlt <;> simp [State.FaultRecordFits, h.status_eq, h.fault_eq, hnone, hs, hi]

/-- A step keeps the invariant: a raise is taken with a record that fits, and an instruction completes inside memory. -/
theorem State.Inv.step (hinv : s.Inv) (h : step s = .next t) : t.Inv := by
  by_cases hs : s.status = .running
  · rcases (step_running_iff hs).mp h with ⟨r, -, hraise, rfl⟩ | ⟨-, k, hk, hpc, hc⟩
    · exact hinv.raise hs (hraise.recordFits hinv.pcInRange)
    · rw [decodeOpcode_some hk] at hpc
      exact hc.inv hinv hs (by rwa [Kind.instr_kind])
  · obtain rfl := eq_of_step_of_not_running hs h
    exact hinv

/-- Settles O47: by what a step can do. -/
theorem stepKeepsInvariant : Obligations.StepKeepsInvariant := by
  unfold Obligations.StepKeepsInvariant
  exact fun s t hinv h => hinv.step h

/-- The state after reset meets the invariant. -/
theorem State.reset_inv : State.reset.Inv := ⟨State.reset_mem_wf, by decide, by decide, rfl⟩

/-- Settles O48: the empty memory is canonical, and nothing has stopped the core. -/
theorem resetMeetsInvariant : Obligations.ResetMeetsInvariant := State.reset_inv

end Sys2Proof.Machine
end

section
/-! The statements on the ALU block (41_alu.md). -/

namespace Sys2Proof.Machine

/-- Settles O20: the block compares the operation with its two, in order. -/
theorem aluContract : Obligations.AluContract := by
  unfold Obligations.AluContract
  exact fun op va vb => ⟨fun h => if_pos h, fun h => (if_neg (by simp [h])).trans (if_pos h),
    fun hadd hmul => (if_neg hadd).trans (if_neg hmul)⟩

/-- Settles O21: the ALU's sum and product are those of 8-bit words, which obey the laws. -/
theorem aluArithmeticLaws : Obligations.AluArithmeticLaws := by
  unfold Obligations.AluArithmeticLaws
  intro va vb vc
  have hadd (x y : Byte) : alu 0xA0 x y = .ok (x + y) := alu_add x y
  have hmul (x y : Byte) : alu 0xA2 x y = .ok (x * y) := alu_mul x y
  simp only [hadd, hmul]
  exact ⟨congrArg _ (BitVec.add_comm va vb), congrArg _ (BitVec.mul_comm va vb),
    congrArg Except.ok (BitVec.add_assoc va vb vc), congrArg Except.ok (BitVec.mul_assoc va vb vc),
    congrArg Except.ok BitVec.mul_add⟩

end Sys2Proof.Machine
end

section
/-! The statements on PUSH, POP and CALL (42_stack.md, 43_call_return.md), and what a push leaves to be read. -/

namespace Sys2Proof.Machine

variable {s t : State} {a v w : Byte} {addr : Nat}

/-- The byte 7 is the index of the stack pointer (R23). -/
theorem index_eq_seven_iff (ha : a.toNat < 8) : (⟨a.toNat, ha⟩ : RegIdx) = 7 ↔ a = 7 :=
  Fin.ext_iff.trans (BitVec.toNat_inj (y := (7 : Byte)))

/-- The register an operand names, after a write of register 7: the value written exactly for the operand 7 (D11). -/
theorem State.reg_setReg_seven (ha : a.toNat < 8) :
    (s.setReg 7 v).reg ⟨a.toNat, ha⟩ = if a = 7 then v else s.reg ⟨a.toNat, ha⟩ := by
  split
  · next h => rw [(index_eq_seven_iff ha).mpr h, State.reg_setReg_self]
  · next h => exact s.reg_setReg_ne _ _ fun e => h ((index_eq_seven_iff ha).mp e.symm)

/-- The byte pushed is in the cell register 7 points at after the push (R150, R160). -/
theorem State.read_pushed_self : (s.pushed v).mem.read (s.reg 7 - 1).toNat = v :=
  s.mem.read_write_self _ v

/-- A push leaves every other cell (R150, R160). -/
theorem State.read_pushed_ne (h : addr ≠ (s.reg 7 - 1).toNat) : (s.pushed v).mem.read addr = s.mem.read addr :=
  s.mem.read_write_ne v h

/-- Register 7 is one lower after a push (R150, R160). -/
theorem State.pushed_reg_seven : (s.pushed v).reg 7 = s.reg 7 - 1 := State.reg_setReg_self ..

/-- The byte pushed is the one on top (R150, R151). -/
theorem State.read_pushed_top : (s.pushed v).mem.read ((s.pushed v).reg 7).toNat = v := by
  rw [State.pushed_reg_seven, State.read_pushed_self]

/-- POP into another register than 7: that write does not change what register 7 is incremented from (R151). -/
theorem State.dropTop_setReg_ne {r : RegIdx} (h : r ≠ 7) :
    (s.setReg r v).dropTop = (s.setReg r v).setReg 7 (s.reg 7 + 1) := by
  rw [State.dropTop, State.stackPointer, s.reg_setReg_ne r v h]

/-- POP,7: the byte loaded is what register 7 is incremented from (R151, D11). -/
theorem State.dropTop_setReg_seven : (s.setReg 7 v).dropTop = s.setReg 7 (v + 1) := by
  rw [State.dropTop, State.stackPointer, State.reg_setReg_self, State.setReg_setReg_self]

/-- Settles O23: PUSH's completion, its index check, and the step of a one-operand opcode. -/
theorem pushStoresRegister : Obligations.PushStoresRegister := by
  unfold Obligations.PushStoresRegister
  refine ⟨fun a s ha _ => ⟨_, (Completes.push ha).exec_eq, rfl, rfl, ?_, fun addr h => State.read_pushed_ne h,
    rfl, rfl, rfl, rfl⟩, fun _ _ ha => exec_of_firstBadIndex (firstBadIndex_cons_of_ge ha),
    fun _ => step_of_opcode_operandCount_one (k := .push) rfl⟩
  exact State.read_pushed_self.trans (State.reg_setReg_seven ha)

/-- Settles O24: POP's completion for an index other than 7 and for 7, its index check, and the step of a one-operand
opcode. -/
theorem popLoadsRegister : Obligations.PopLoadsRegister := by
  unfold Obligations.PopLoadsRegister
  refine ⟨fun a s ha h7 _ => ?_, fun s _ => ?_, fun _ _ ha => exec_of_firstBadIndex (firstBadIndex_cons_of_ge ha),
    fun _ => step_of_opcode_operandCount_one (k := .pop) rfl⟩
  · rw [(Completes.pop ha).exec_eq, State.dropTop_setReg_ne fun e => h7 ((index_eq_seven_iff ha).mp e)]
    rfl
  · exact (Completes.pop (a := 7) (by decide)).exec_eq.trans
      (congrArg (fun u : State => Host.Outcome.next (u.advance .pop)) State.dropTop_setReg_seven)

/-- States that agree in every register have the same register file. -/
theorem State.regs_eq_of_reg_eq (h : ∀ r, t.reg r = s.reg r) : t.regs = s.regs :=
  Vector.ext fun n hn => h ⟨n, hn⟩

/-- A register after the write of one: the value written, or what it held (R21). -/
theorem State.reg_setReg {r r' : RegIdx} : (s.setReg r v).reg r' = if r = r' then v else s.reg r' := by
  split
  · next h => rw [← h, State.reg_setReg_self]
  · next h => exact s.reg_setReg_ne r v h

/-- Popping into a register what was pushed from it restores it and register 7. -/
theorem State.reg_pop_pushed {r : RegIdx} (hv : v = (s.setReg 7 (s.reg 7 - 1)).reg r) (r' : RegIdx) :
    ((s.pushed v).setReg r v).dropTop.reg r' = s.reg r' := by
  subst hv
  by_cases h : r = 7
  · subst h
    simp only [State.dropTop_setReg_seven, State.reg_setReg, State.pushed_reg, if_true, BitVec.sub_add_cancel]
    split_ifs with h7
    · rw [h7]
    · rfl
  · simp only [State.dropTop_setReg_ne h, State.reg_setReg, State.pushed_reg, if_true, Ne.symm h, if_false,
      BitVec.sub_add_cancel]
    split_ifs with h7 hr
    · rw [h7]
    · rw [hr]
    · rfl

/-- Settles O25: POP reads the pushed cell, and no other cell was written. -/
theorem pushThenPopRestores : Obligations.PushThenPopRestores := by
  unfold Obligations.PushThenPopRestores
  intro a s ha
  refine ⟨_, _, (Completes.push ha).exec_eq, (Completes.pop ha).exec_eq, ?_, fun addr h => State.read_pushed_ne h⟩
  refine State.regs_eq_of_reg_eq fun r => ?_
  simp only [State.advance_mem, State.advance_reg, State.read_pushed_top]
  exact State.reg_pop_pushed rfl r

/-- Settles O26: CALL's completion, its index check and that of its return address, and the step of a one-operand
opcode. -/
theorem callPushesReturnAddress : Obligations.CallPushesReturnAddress := by
  unfold Obligations.CallPushesReturnAddress
  refine ⟨fun a s ha hpc => ⟨_, (Completes.call ha hpc).exec_eq, ?_, rfl, State.read_pushed_self,
    fun addr h => State.read_pushed_ne h, rfl, rfl, rfl, rfl⟩,
    fun _ _ ha => exec_of_firstBadIndex (firstBadIndex_cons_of_ge ha), fun s hs hop => ?_⟩
  · exact congrArg (BitVec.setWidth 9) (State.reg_setReg_seven ha)
  · obtain ⟨hlast, hexec⟩ := step_of_opcode_operandCount_one (k := .call) rfl hs hop
    refine ⟨hlast, fun hpc ha => ?_, hexec⟩
    have hpc' : s.pc.toNat = 254 := by simp [hpc]
    rw [hexec hpc'.le, hpc']
    refine (ExecRaises.returnAddress ha (by omega)).exec_eq.trans ?_
    rw [s.raise_addressOutOfRange 2, hpc]
    rfl

/-- Settles O28: RET reads the cell CALL wrote, and increments what CALL decremented. -/
theorem callThenRetResumes : Obligations.CallThenRetResumes := by
  unfold Obligations.CallThenRetResumes
  intro a s ha hpc
  refine ⟨_, (Completes.call ha hpc).exec_eq, fun u h7 hcell => ⟨_, Completes.ret.exec_eq, ?_, ?_⟩⟩
  · rw [State.jump_pc_toNat, hcell]
    simp only [State.jump_reg, State.jump_mem, State.pushed_reg_seven, State.read_pushed_self, BitVec.toNat_ofNat]
    omega
  · calc (u.dropTop).reg 7 = u.reg 7 + 1 := State.reg_setReg_self ..
      _ = s.reg 7 - 1 + 1 := by rw [h7, State.jump_reg, State.pushed_reg_seven]
      _ = s.reg 7 := BitVec.sub_add_cancel ..

/-- A fetch at the address a byte gives sees the cell there first. -/
theorem State.head?_fetchBytes (h : s.pc.toNat = v.toNat) : s.fetchBytes.head? = some (s.mem.read v.toNat) := by
  rw [State.fetchBytes_of_le (h ▸ Nat.le_of_lt_succ v.isLt), h]
  rfl

/-- Settles O45: the fetch after PUSH or CALL sees memory as they left it. -/
theorem storeSeenByNextFetch : Obligations.StoreSeenByNextFetch := by
  unfold Obligations.StoreSeenByNextFetch
  exact fun a s ha hpc =>
    ⟨⟨_, (Completes.push ha).exec_eq, fun h => (State.head?_fetchBytes h).trans (congrArg some State.read_pushed_self)⟩,
      ⟨_, (Completes.call ha hpc).exec_eq, fun h =>
        (State.head?_fetchBytes h).trans (congrArg some State.read_pushed_self)⟩⟩

end Sys2Proof.Machine
end

section
/-! The frames of the nine instructions (10_state.md section 2, 20_memory.md section 4): what completing leaves as it was,
and that a raise leaves everything but the status and the record. -/

namespace Sys2Proof.Machine

variable {s t : State} {i : Instr} {r : RegIdx} {e : Raise} {a b x : Byte} {addr : Nat}

/-- Only the cell below the stack pointer can be written (R70). -/
theorem Completes.read_eq (h : Completes s i t) (haddr : addr ≠ (s.stackPointer - 1).toNat) :
    t.mem.read addr = s.mem.read addr := by
  cases h with
  | push | call => exact State.read_pushed_ne haddr
  | _ => rfl

/-- Only PUSH and CALL write memory (R70). -/
theorem Completes.mem_eq (h : Completes s i t) (hi : i.kind ∉ [.push, .call]) : t.mem = s.mem := by
  cases h with
  | push | call => simp [Instr.kind] at hi
  | _ => rfl

/-- Only PRN extends the output stream, by the value of its register (R131). -/
theorem Completes.out_cases (h : Completes s i t) :
    t.out = s.out ∨ ∃ (a : Byte) (ha : a.toNat < 8), i = .prn a ∧ t.out = s.out ++ [s.reg ⟨a.toNat, ha⟩] := by
  cases h with
  | prn ha => exact .inr ⟨_, ha, rfl, rfl⟩
  | _ => exact .inl rfl

/-- What `exec` answers changes a register only where the instruction is listed as writing it (R24). -/
theorem exec_reg_eq (h : exec i s = .next t) (hw : ¬ i.writesReg r) : t.reg r = s.reg r :=
  registersUsedAsListed.1 i s t r h hw

/-- What `exec` answers changes at most the cell below the stack pointer (R70). -/
theorem exec_read_eq (h : exec i s = .next t) (haddr : addr ≠ (s.stackPointer - 1).toNat) :
    t.mem.read addr = s.mem.read addr := by
  rcases exec_eq_next_iff.mp h with hc | ⟨e, -, rfl⟩
  · exact hc.read_eq haddr
  · rfl

/-- What `exec` answers has the memory as it was, but for PUSH and CALL (R70). -/
theorem exec_mem_eq (h : exec i s = .next t) (hi : i.kind ∉ [.push, .call]) : t.mem = s.mem := by
  rcases exec_eq_next_iff.mp h with hc | ⟨e, -, rfl⟩
  · exact hc.mem_eq hi
  · rfl

/-- What `exec` answers has the halted flag as it was, but for HLT (R30). -/
theorem exec_halted_eq (h : exec i s = .next t) (hi : i ≠ .hlt) : t.halted = s.halted := by
  rcases exec_eq_next_iff.mp h with hc | ⟨e, -, rfl⟩
  · rw [hc.halted_eq, if_neg hi]
  · rfl

/-- What `exec` answers has the output stream as it was, but for PRN (R131). -/
theorem exec_out_eq (h : exec i s = .next t) (hi : i.kind ≠ .prn) : t.out = s.out := by
  rcases exec_eq_next_iff.mp h with hc | ⟨e, -, rfl⟩
  · rcases hc.out_cases with hout | ⟨a, ha, rfl, -⟩
    · exact hout
    · exact absurd rfl hi
  · rfl

/-- What `exec` answers, HLT apart, has status and record as they were, or is a raise. -/
theorem exec_status_cases (h : exec i s = .next t) (hi : i ≠ .hlt) :
    t.status = s.status ∧ t.fault = s.fault ∨ ∃ e, ExecRaises s.pc i e ∧ t = s.raise e := by
  rcases exec_eq_next_iff.mp h with hc | hraise
  · exact .inl ⟨hc.status_eq.trans (if_neg hi), hc.fault_eq⟩
  · exact .inr hraise

/-- The one operand of an instruction with one is its bad index where it is above 7 (R103). -/
theorem firstBadIndex_singleton (h : firstBadIndex [a] = some x) : 8 ≤ a.toNat ∧ x = a := by
  obtain rfl : x = a := List.mem_singleton.mp (List.mem_of_find?_eq_some h)
  exact ⟨firstBadIndex_ge h, rfl⟩

/-- The first bad index of two operands is `a`, or `b` where `a` is none (R103, R104). -/
theorem firstBadIndex_pair (h : firstBadIndex [a, b] = some x) :
    8 ≤ a.toNat ∧ x = a ∨ a.toNat < 8 ∧ 8 ≤ b.toNat ∧ x = b := by
  rcases Nat.lt_or_ge a.toNat 8 with ha | ha
  · have hb : firstBadIndex [b] = some x := (List.find?_cons_of_neg (by simpa using ha)).symm.trans h
    exact .inr ⟨ha, firstBadIndex_singleton hb⟩
  · exact .inl ⟨ha, Option.some.inj (h.symm.trans (firstBadIndex_cons_of_ge ha))⟩

/-- But for HLT and CALL, status and record change only by the raise of the first bad index (R103). -/
theorem exec_status_cases_of_ne_call (h : exec i s = .next t) (hi : i.kind ∉ [.hlt, .call]) :
    t.status = s.status ∧ t.fault = s.fault ∨
      ∃ x, firstBadIndex i.registerOperands = some x ∧ t = s.afterFault .registerIndexOutOfRange (x.setWidth 9) := by
  rcases exec_status_cases h fun e => hi (e ▸ by decide) with hkeep | ⟨e, he, rfl⟩
  · exact .inl hkeep
  · cases he with
    | badOperand hbad => exact .inr ⟨_, hbad, rfl⟩
    | returnAddress => simp [Instr.kind] at hi

/-- The same for an instruction that names a register with one operand. -/
theorem exec_status_cases_singleton (h : exec i s = .next t) (hi : i.kind ∉ [.hlt, .call])
    (ha : i.registerOperands = [a]) :
    t.status = s.status ∧ t.fault = s.fault ∨
      8 ≤ a.toNat ∧ t = s.afterFault .registerIndexOutOfRange (a.setWidth 9) := by
  rcases exec_status_cases_of_ne_call h hi with hkeep | ⟨x, hx, rfl⟩
  · exact .inl hkeep
  · obtain ⟨hge, rfl⟩ := firstBadIndex_singleton (ha ▸ hx)
    exact .inr ⟨hge, rfl⟩

/-- The same for an instruction that names registers with two operands. -/
theorem exec_status_cases_pair (h : exec i s = .next t) (hi : i.kind ∉ [.hlt, .call])
    (hab : i.registerOperands = [a, b]) :
    t.status = s.status ∧ t.fault = s.fault ∨
      8 ≤ a.toNat ∧ t = s.afterFault .registerIndexOutOfRange (a.setWidth 9) ∨
      a.toNat < 8 ∧ 8 ≤ b.toNat ∧ t = s.afterFault .registerIndexOutOfRange (b.setWidth 9) := by
  rcases exec_status_cases_of_ne_call h hi with hkeep | ⟨x, hx, rfl⟩
  · exact .inl hkeep
  · rcases firstBadIndex_pair (hab ▸ hx) with ⟨ha, rfl⟩ | ⟨ha, hb, rfl⟩
    · exact .inr (.inl ⟨ha, rfl⟩)
    · exact .inr (.inr ⟨ha, hb, rfl⟩)

/-- LDI, ADD and MUL change one register and neither memory, flag nor output. -/
theorem exec_frame_of_registerInstr (h : exec i s = .next t) (hi : i.kind ∈ [.ldi, .add, .mul]) :
    (∀ r, ¬ i.writesReg r → t.reg r = s.reg r) ∧
    (∀ addr, t.mem.read addr = s.mem.read addr) ∧ t.halted = s.halted ∧ t.out = s.out := by
  have hk : ∀ k ∈ [Kind.ldi, .add, .mul], k ∉ [.push, .call] ∧ k ≠ .hlt ∧ k ≠ .prn := by decide
  obtain ⟨hmem, hhlt, hprn⟩ := hk _ hi
  exact ⟨fun r hw => exec_reg_eq h hw, fun addr => by rw [exec_mem_eq h hmem],
    exec_halted_eq h fun e => hhlt (congrArg Instr.kind e), exec_out_eq h hprn⟩

/-- Settles O31: the frame for each of the three, and their first bad index. -/
theorem registerInstructionFrame : Obligations.RegisterInstructionFrame := by
  unfold Obligations.RegisterInstructionFrame
  refine ⟨?_, fun a b s t h => exec_status_cases_singleton h (by simp [Instr.kind]) rfl, ?_⟩
  · rintro a b s t (h | h | h)
    all_goals exact exec_frame_of_registerInstr h (by simp [Instr.kind])
  · rintro a b s t (h | h)
    all_goals exact exec_status_cases_pair h (by simp [Instr.kind]) rfl

/-- Settles O32: neither writes a register or memory, PRN does not halt, and HLT does not emit. -/
theorem outputAndHaltFrame : Obligations.OutputAndHaltFrame := by
  unfold Obligations.OutputAndHaltFrame
  refine ⟨fun a s t h => ⟨fun r => exec_reg_eq h id, fun addr => ?_, exec_halted_eq h nofun,
    exec_status_cases_singleton h (by simp [Instr.kind]) rfl⟩, fun s t h => ?_⟩
  · rw [exec_mem_eq h (by simp [Instr.kind])]
  · obtain rfl : s.halt = t := Host.Outcome.next.inj (Completes.hlt.exec_eq.symm.trans h)
    exact ⟨fun _ => rfl, fun _ => rfl, rfl, rfl, rfl⟩

/-- Settles O33: the cell below the stack pointer and register 7 are all that PUSH and CALL write. -/
theorem stackStoreFrame : Obligations.StackStoreFrame := by
  unfold Obligations.StackStoreFrame
  rintro a s t (h | h)
  all_goals
    refine ⟨fun addr haddr => exec_read_eq h haddr, fun r h7 => exec_reg_eq h h7, exec_halted_eq h nofun,
      exec_out_eq h nofun, ?_⟩
    rcases exec_status_cases h nofun with hkeep | ⟨e, -, rfl⟩
    · exact .inl hkeep
    · exact .inr rfl

/-- Settles O34: POP and RET write no memory, and registers as listed. -/
theorem stackLoadFrame : Obligations.StackLoadFrame := by
  unfold Obligations.StackLoadFrame
  refine ⟨fun a s t h => ⟨fun addr => ?_, fun r h7 ha => exec_reg_eq h (not_or.mpr ⟨ha, h7⟩), exec_halted_eq h nofun,
    exec_out_eq h nofun, exec_status_cases_singleton h (by simp [Instr.kind]) rfl⟩, fun s t h => ?_⟩
  · rw [exec_mem_eq h (by simp [Instr.kind])]
  · obtain rfl := Host.Outcome.next.inj (Completes.ret.exec_eq.symm.trans h)
    exact ⟨fun _ => rfl, fun r h7 => exec_reg_eq h h7, rfl, rfl, rfl, rfl⟩

/-- With another memory an instruction completes alike, POP and RET where that agrees on the top of the stack (R70). -/
theorem Completes.withMem (h : Completes s i t) (m : Memory)
    (hm : i.kind ∈ [.pop, .ret] → m.read (s.reg 7).toNat = s.mem.read (s.reg 7).toNat) :
    ∃ u, Completes { s with mem := m } i u ∧ { u with mem := t.mem } = t := by
  cases h with
  | ldi ha => exact ⟨_, .ldi ha, rfl⟩
  | prn ha => exact ⟨_, .prn ha, rfl⟩
  | hlt => exact ⟨_, .hlt, rfl⟩
  | add ha hb => exact ⟨_, .add ha hb, rfl⟩
  | mul ha hb => exact ⟨_, .mul ha hb, rfl⟩
  | push ha => exact ⟨_, .push ha, rfl⟩
  | pop ha =>
    rw [← hm (by simp [Instr.kind])]
    exact ⟨_, .pop ha, rfl⟩
  | call ha hpc => exact ⟨_, .call ha hpc, rfl⟩
  | ret =>
    rw [← hm (by simp [Instr.kind])]
    exact ⟨_, .ret, rfl⟩

/-- Settles O35: completing reads no cell but the top of the stack, and a raise none at all. -/
theorem dataMemoryReadsAsListed : Obligations.DataMemoryReadsAsListed := by
  unfold Obligations.DataMemoryReadsAsListed
  intro i s m hm
  rcases completes_or_raises i s with ⟨t, hc⟩ | ⟨e, he⟩
  · obtain ⟨u, hu, heq⟩ := hc.withMem m hm
    exact ⟨t, u, hc.exec_eq, hu.exec_eq, heq⟩
  · exact ⟨s.raise e, _, he.exec_eq, he.exec_eq (s := { s with mem := m }), rfl⟩

end Sys2Proof.Machine
end

section
/-! The statements on the three ports (10_state.md section 6, 60_exceptions.md). -/

namespace Sys2Proof.Machine

variable {s t : State}

/-- Settles O39: each cause has its code. -/
theorem diagnosticPortShowsRecord : Obligations.DiagnosticPortShowsRecord := by
  unfold Obligations.DiagnosticPortShowsRecord
  exact fun s info => ⟨rfl, rfl, rfl, rfl, rfl⟩

/-- The k-th byte of the trace is the memory byte at `pc + k`, if there is one (R196, D21). -/
theorem State.tracePort_bytes_getElem? (s : State) {k : Nat} (hk : k < 3) :
    s.tracePort.bytes[k]? =
      some (if s.pc.toNat + k < 256 then some (s.mem.read (s.pc.toNat + k)) else none) := by
  match k, hk with
  | 0, _ => rfl
  | 1, _ => rfl
  | 2, _ => rfl

/-- Settles O40: the k-th byte is shown exactly where its address is inside memory. -/
theorem tracePortShowsState : Obligations.TracePortShowsState := by
  unfold Obligations.TracePortShowsState
  refine fun s k hk => ⟨rfl, rfl, rfl, fun hle => ?_, fun hgt => ?_⟩
  · rw [s.tracePort_bytes_getElem? hk, if_pos (by omega)]
  · rw [s.tracePort_bytes_getElem? hk, if_neg (by omega)]

/-- The output of a step is what it leaves beyond the stream as it was. -/
theorem stepOutput_of_step {l : List Byte} (h : step s = .next t) (hout : t.out = s.out ++ l) : stepOutput s = l := by
  simp [stepOutput, h, hout]

/-- An instruction read from its kind and bytes is PRN of a byte exactly as PRN with that byte (R95). -/
theorem instr_eq_prn {k : Kind} {a b x : Byte} (h : k.instr a b = .prn x) : k = .prn ∧ x = a := by
  cases k <;> cases h
  exact ⟨rfl, rfl⟩

/-- Settles O41: of what a step can do, only completing PRN appends to the stream. -/
theorem outputOnlyByPrn : Obligations.OutputOnlyByPrn := by
  unfold Obligations.OutputOnlyByPrn
  intro s t h
  have hnil (hout : t.out = s.out) : t.out = s.out ++ stepOutput s ∧ stepOutput s = [] := by
    rw [stepOutput_of_step (l := []) h (by simp [hout])]
    simp [hout]
  by_cases hs : s.status = .running
  · rcases (step_running_iff hs).mp h with ⟨r, -, -, rfl⟩ | ⟨-, k, hk, -, hc⟩
    · exact ⟨(hnil rfl).1, .inl (hnil rfl).2⟩
    · rcases hc.out_cases with hout | ⟨a, ha, hi, hout⟩
      · exact ⟨(hnil hout).1, .inl (hnil hout).2⟩
      · obtain ⟨rfl, rfl⟩ := instr_eq_prn hi
        have hstep := stepOutput_of_step h hout
        exact ⟨hstep ▸ hout, .inr ⟨hs, decodeOpcode_some hk, ha, hstep⟩⟩
  · obtain rfl := eq_of_step_of_not_running hs h
    exact ⟨(hnil rfl).1, .inl (hnil rfl).2⟩

end Sys2Proof.Machine
end

section
/-! The statements on memory beyond the two primitives (20_memory.md): an address outside it, and that its cells are all it
holds. -/

namespace Sys2Proof.Machine

variable {m m' : Memory} {c : Host.Cell} {addr : Nat}

/-- Settles O43: the range check of either primitive fails. -/
theorem outOfRangeAccessRaises : Obligations.OutOfRangeAccessRaises := by
  unfold Obligations.OutOfRangeAccessRaises
  exact fun s addr v h => ⟨s.memRead_of_ge h, s.memWrite_of_ge v h⟩

/-- A cell that reads other than the reset value is listed (R77). -/
theorem Memory.mem_of_read_ne (h : m.read addr ≠ Config.memReset) : (addr, m.read addr) ∈ m := by
  induction m with
  | nil => exact absurd rfl h
  | cons c m ih =>
    unfold Memory.read at h ⊢
    split
    · next hc => exact List.mem_cons.mpr (.inl (by rw [← hc]))
    · next hc => exact List.mem_cons_of_mem _ (ih (by simpa [hc] using h))

/-- A listed cell is what is read at its address. -/
theorem Memory.read_of_mem (hm : m.Pairwise fun c d => c.1 < d.1) (hc : c ∈ m) : m.read c.1 = c.2 := by
  induction m with
  | nil => cases hc
  | cons d m ih =>
    obtain ⟨hd, hm⟩ := List.pairwise_cons.mp hm
    rcases List.mem_cons.mp hc with rfl | hc
    · exact if_pos rfl
    · exact (if_neg (hd c hc).ne).trans (ih hm hc)

/-- In canonical form, what is listed in one memory is listed in every other that reads alike. -/
theorem Memory.mem_of_read_eq (hm : m.wf) (h : ∀ addr < 256, m.read addr = m'.read addr) (hc : c ∈ m) : c ∈ m' := by
  obtain ⟨hlt, hne⟩ := hm.2 c hc
  have hread : m'.read c.1 = c.2 := (h c.1 hlt).symm.trans (Memory.read_of_mem hm.1 hc)
  have hmem := Memory.mem_of_read_ne (hread ▸ hne)
  rwa [hread] at hmem

/-- Settles O44: two lists in strictly rising order with the same members are equal. -/
theorem memoryIsItsCells : Obligations.MemoryIsItsCells := by
  unfold Obligations.MemoryIsItsCells
  intro m m' hm hm' h
  have : Std.Irrefl fun c d : Host.Cell => c.1 < d.1 := ⟨fun c => lt_irrefl c.1⟩
  have : Std.Antisymm fun c d : Host.Cell => c.1 < d.1 := ⟨fun c d hcd hdc => absurd hcd hdc.asymm⟩
  exact hm.1.eq_of_mem_iff hm'.1 fun c =>
    ⟨Memory.mem_of_read_eq hm h, Memory.mem_of_read_eq hm' fun addr hlt => (h addr hlt).symm⟩

end Sys2Proof.Machine
end

section
/-! The statements on reset and on runs (10_state.md section 8, 70_reset_and_hazards.md sections 2 and 3). -/

namespace Sys2Proof.Machine

variable {s t : State} {n : Nat}

/-- Settles O46: each field as `State.reset` has it. -/
theorem resetState : Obligations.ResetState := by
  unfold Obligations.ResetState
  exact ⟨rfl, rfl, rfl, rfl, rfl, rfl, fun _ => rfl⟩

/-- One more step of a run, in front. -/
theorem run_succ {M : Host.Core} {s t : M.State} (h : M.step s = .next t) (n : Nat) : M.run (n + 1) s = M.run n t := by
  rw [Host.Core.run, h]

/-- A run in two parts. -/
theorem run_add_of_next {n : Nat} (h : core.run n s = .next t) (k : Nat) : core.run (n + k) s = core.run k t := by
  induction n generalizing s with
  | zero =>
    obtain rfl : s = t := Host.Outcome.next.inj h
    rw [Nat.zero_add]
  | succ n ih =>
    obtain ⟨u, hu⟩ := exists_step_eq_next s
    rw [run_succ (M := core) hu] at h
    rw [Nat.add_right_comm, run_succ (M := core) hu, ih h]

/-- Settles O49: while the core runs both take the same step, and afterwards a step changes nothing. -/
theorem runEqualsSteps : Obligations.RunEqualsSteps := by
  unfold Obligations.RunEqualsSteps
  intro n
  induction n with
  | zero => exact fun s => rfl
  | succ n ih =>
    intro s
    by_cases hs : s.status = .running
    · obtain ⟨t, ht⟩ := exists_step_eq_next s
      rw [run_succ (M := core) ht, ← ih, runWhile, if_pos hs, ht]
    · exact (if_neg hs).trans (run_of_step_eq_self (M := core) (step_of_not_running hs) _).symm

/-- The invariant holds all along a run. -/
theorem State.Inv.run {n : Nat} (hinv : s.Inv) (h : core.run n s = .next t) : t.Inv := by
  induction n generalizing s with
  | zero =>
    obtain rfl : s = t := Host.Outcome.next.inj h
    exact hinv
  | succ n ih =>
    obtain ⟨u, hu⟩ := exists_step_eq_next s
    rw [run_succ (M := core) hu] at h
    exact ih (hinv.step hu) h

/-- A stopped core that meets the invariant has ended as R229 has it. -/
theorem State.Inv.ended (hinv : s.Inv) (hs : s.status ≠ .running) : s.EndedHalted ∨ s.EndedFaulted := by
  have hhalt := hinv.haltedMatches
  have hfits := hinv.faultFits
  unfold State.FaultRecordFits at hfits
  cases hstatus : s.status with
  | running => exact absurd hstatus hs
  | halted =>
    rw [hstatus] at hfits
    exact .inl ⟨hstatus, hhalt.mp hstatus, by rw [hfits]; rfl⟩
  | faulted =>
    rw [hstatus] at hfits
    obtain ⟨hpc, hcause⟩ := hfits
    refine .inr ⟨hstatus, by simpa [hstatus] using hhalt, fun hnone => ?_, hpc⟩
    rw [hnone] at hcause
    exact hcause

/-- Settles O50: the run's last state meets the invariant, and a stopped core stays as it is. -/
theorem runEndsOneWay : Obligations.RunEndsOneWay := by
  unfold Obligations.RunEndsOneWay
  intro s t n m hinv hle h ht
  refine ⟨?_, (hinv.run h).ended ht, fun ⟨hh, hf⟩ => absurd (hh.1.symm.trans hf.1) (by decide)⟩
  obtain ⟨k, rfl⟩ := Nat.exists_eq_add_of_le hle
  rw [run_add_of_next h, run_of_step_eq_self (M := core) (step_of_not_running ht)]

end Sys2Proof.Machine
end

section
/-! The statements on the loader (70_reset_and_hazards.md sections 2 and 6): a load stores the values of its lines, each a
byte, from address 0. -/

namespace Sys2Proof.Machine

variable {m m' : Memory} {addr other v : Nat} {bytes : List Byte} {lines : List (List Char)}

/-- Bytes stored from an address on leave the cells below it. -/
theorem Memory.read_writeFrom_of_lt (h : other < addr) : (m.writeFrom addr bytes).read other = m.read other := by
  induction bytes generalizing m addr with
  | nil => rfl
  | cons b bytes ih =>
    unfold Memory.writeFrom
    split
    · rw [ih (Nat.lt_succ_of_lt h), Memory.read_write_ne _ _ h.ne]
    · rfl

/-- Bytes that fit in memory are read back one after the other, and above them memory is as it was. -/
theorem Memory.read_writeFrom_add (h : addr + bytes.length ≤ 256) (k : Nat) :
    (m.writeFrom addr bytes).read (addr + k) = bytes.getD k (m.read (addr + k)) := by
  induction bytes generalizing m addr k with
  | nil => rfl
  | cons b bytes ih =>
    rw [List.length_cons] at h
    rw [Memory.writeFrom, if_pos (show addr < Config.memSize by simp only [Config.memSize]; omega)]
    cases k with
    | zero => exact (Memory.read_writeFrom_of_lt (Nat.lt_succ_self addr)).trans (m.read_write_self addr b)
    | succ k =>
      rw [List.getD_cons_succ, show addr + (k + 1) = addr + 1 + k by omega, ih (by omega),
        Memory.read_write_ne _ _ (by omega)]

/-- Nothing is read of a memory that has only been reset but what was stored (R77). -/
theorem Memory.read_writeFrom_reset (h : bytes.length ≤ 256) (addr : Nat) :
    (State.reset.mem.writeFrom 0 bytes).read addr = bytes.getD addr Config.memReset := by
  have hread := State.reset.mem.read_writeFrom_add (addr := 0) ((Nat.zero_add _).trans_le h) addr
  rwa [Nat.zero_add] at hread

/-- A load succeeds exactly where every value is a byte and the cells from `addr` on are enough, and then it stores the
values there (R223, R224). -/
theorem loadLines_eq_ok_iff (haddr : addr ≤ 256) :
    loadLines lines addr m = .ok m' ↔
      (∀ v ∈ lines.filterMap parseLine, v ≤ 255) ∧ addr + (lines.filterMap parseLine).length ≤ 256 ∧
        m.writeFrom addr ((lines.filterMap parseLine).map (BitVec.ofNat 8)) = m' := by
  induction lines generalizing addr m with
  | nil => simp [loadLines, Memory.writeFrom, haddr]
  | cons line rest ih =>
    cases hline : parseLine line with
    | none => rw [loadLines, hline, List.filterMap_cons_none hline, ih haddr]
    | some v =>
      rw [loadLines, hline, List.filterMap_cons_some hline, List.forall_mem_cons, List.length_cons, List.map_cons,
        Memory.writeFrom]
      by_cases hv : 255 < v
      · exact iff_of_false (by simp [hv]) fun ⟨⟨hle, _⟩, _⟩ => absurd hle (Nat.not_le.mpr hv)
      · by_cases ha : 255 < addr
        · exact iff_of_false (by simp [hv, ha]) fun ⟨_, hle, _⟩ => by omega
        · have hlt : addr < Config.memSize := Nat.lt_succ_of_le (Nat.not_lt.mp ha)
          simp only [if_neg hv, if_neg ha, if_pos hlt, ih (show addr + 1 ≤ 256 from hlt), Nat.not_lt.mp hv, true_and,
            Nat.add_right_comm addr 1, Nat.add_assoc]

/-- What a successful boot has loaded (R222). -/
theorem boot_values {text : List Char} {s : State} (h : boot (some text) = .ok s) :
    (∀ v ∈ (splitLines text).filterMap parseLine, v ≤ 255) ∧ ((splitLines text).filterMap parseLine).length ≤ 256 ∧
      ∀ addr, s.mem.read addr = (((splitLines text).filterMap parseLine).map (BitVec.ofNat 8)).getD addr 0 := by
  obtain ⟨_, m, heq, hload, rfl⟩ := boot_ok h
  cases heq
  obtain ⟨hle, hlen, rfl⟩ := (loadLines_eq_ok_iff (Nat.zero_le _)).mp hload
  rw [Nat.zero_add] at hlen
  exact ⟨hle, hlen, Memory.read_writeFrom_reset (by simpa using hlen)⟩

/-- Settles O51: the image is the stored values, read from address 0. -/
theorem loaderBuildsImage : Obligations.LoaderBuildsImage := by
  unfold Obligations.LoaderBuildsImage
  intro lines values
  refine ⟨fun m h => ?_, fun hle hlen => ?_⟩
  · have hwf := loadLines_wf State.reset_mem_wf h
    obtain ⟨hle, hlen, rfl⟩ := (loadLines_eq_ok_iff (Nat.zero_le _)).mp h
    rw [Nat.zero_add] at hlen
    refine ⟨hle, hlen, hwf, fun addr => ?_⟩
    rw [Memory.read_writeFrom_reset (by simpa using hlen)]
    exact List.getD_map ..
  · exact ⟨_, (loadLines_eq_ok_iff (Nat.zero_le _)).mpr ⟨hle, by simpa using hlen, rfl⟩⟩

/-- A digit of a byte's literal counts as that bit of the byte, most significant bit first (R225). -/
theorem digit_eq_mod_two (b : Byte) {k : Nat} (hk : k < 8) :
    (if (if b.getMsbD k then '1' else '0') = '1' then 1 else 0) = b.toNat / 2 ^ (7 - k) % 2 := by
  have hbit : b.getMsbD k = decide (b.toNat / 2 ^ (7 - k) % 2 = 1) := by
    rw [BitVec.getMsbD, decide_eq_true hk, Bool.true_and, BitVec.getLsbD, Nat.testBit_eq_decide_div_mod_eq]
  rw [hbit]
  rcases Nat.mod_two_eq_zero_or_one (b.toNat / 2 ^ (7 - k)) with h | h <;> simp [h]

/-- The value of the first `k` digits of a byte's literal is the byte without its lower bits (R223, R225). -/
theorem foldl_digits_eq_div (b : Byte) {k : Nat} (hk : k ≤ 8) :
    ((List.range k).map fun j => if b.getMsbD j then '1' else '0').foldl
      (fun n c => 2 * n + if c = '1' then 1 else 0) 0 = b.toNat / 2 ^ (8 - k) := by
  induction k with
  | zero => exact (Nat.div_eq_of_lt b.isLt).symm
  | succ k ih =>
    have hhalf : b.toNat / 2 ^ (8 - k) = b.toNat / 2 ^ (7 - k) / 2 := by
      rw [show 8 - k = 7 - k + 1 by omega, Nat.pow_succ, Nat.div_div_eq_div_mul]
    rw [List.range_succ, List.map_append, List.foldl_append, ih (by omega), hhalf, show 8 - (k + 1) = 7 - k by omega]
    exact (congrArg _ (digit_eq_mod_two b hk)).trans (Nat.div_add_mod _ 2)

/-- A byte's literal is made of the two digits. -/
theorem digit_of_mem_formatBinary {b : Byte} {c : Char} (h : c ∈ formatBinary b) : c = '0' ∨ c = '1' := by
  obtain ⟨k, -, rfl⟩ := List.mem_map.mp h
  split
  · exact .inr rfl
  · exact .inl rfl

/-- Where there is no whitespace, there is none to trim. -/
theorem trimSpaces_eq_self {cs : List Char} (h : ∀ c ∈ cs, c.isWhitespace = false) : trimSpaces cs = cs := by
  have hdrop {l : List Char} (hl : ∀ c ∈ l, c.isWhitespace = false) : l.dropWhile Char.isWhitespace = l :=
    List.dropWhile_eq_self_iff.mpr fun hpos => by simp [hl _ (List.getElem_mem hpos)]
  rw [trimSpaces, hdrop h, hdrop fun c hc => h c (List.mem_reverse.mp hc), List.reverse_reverse]

/-- A byte written as an 8-bit literal is read as its value (R223, R225). -/
theorem parseLine_formatBinary (b : Byte) : parseLine (formatBinary b) = some b.toNat := by
  have hstrip : stripComment (formatBinary b) = formatBinary b :=
    List.takeWhile_eq_self_iff.mpr fun c hc => by rcases digit_of_mem_formatBinary hc with rfl | rfl <;> rfl
  have htrim : trimSpaces (formatBinary b) = formatBinary b :=
    trimSpaces_eq_self fun c hc => by rcases digit_of_mem_formatBinary hc with rfl | rfl <;> rfl
  have hdigits : (formatBinary b).all (fun c => c == '0' || c == '1') := by
    simpa using fun c hc => digit_of_mem_formatBinary hc
  have hvalue := foldl_digits_eq_div b le_rfl
  rw [Nat.sub_self, Nat.pow_zero, Nat.div_one] at hvalue
  rw [parseLine, hstrip, htrim, parseBinary, if_pos ⟨by simp [formatBinary], hdigits⟩]
  exact congrArg some hvalue

/-- Settles O52: each loaded cell holds its line's value, which is a byte. -/
theorem loaderRoundTrip : Obligations.LoaderRoundTrip := by
  unfold Obligations.LoaderRoundTrip
  refine ⟨rfl, fun text s h => ?_⟩
  obtain ⟨hle, -, hread⟩ := boot_values h
  refine List.ext_getElem (by simp) fun n hn hn' => ?_
  have hlt : n < ((splitLines text).filterMap parseLine).length := by simpa using hn
  have hv := hle _ (List.getElem_mem hlt)
  have hcell : s.mem.read n = BitVec.ofNat 8 ((splitLines text).filterMap parseLine)[n] := by simp [hread, hlt]
  simp only [List.getElem_map, List.getElem_range, hcell, parseLine_formatBinary, BitVec.toNat_ofNat,
    Nat.mod_eq_of_lt (Nat.lt_succ_of_le hv)]

/-- Settles O53: the loaded image, and for everything else reset. -/
theorem bootMeetsLaunchPremises : Obligations.BootMeetsLaunchPremises := by
  unfold Obligations.BootMeetsLaunchPremises
  intro text s h
  obtain ⟨-, hlen, hread⟩ := boot_values h
  obtain ⟨_, m, -, hload, rfl⟩ := boot_ok h
  have hgpr : ∀ r : RegIdx, r.val < 7 → State.reset.reg r = 0x00#8 := by decide
  obtain ⟨-, hpc, hhalted, -⟩ := State.reset_inv
  exact ⟨⟨⟨rfl, rfl⟩, rfl, rfl, rfl, hgpr, ⟨by simpa using hlen, hread⟩, rfl⟩,
    ⟨loadLines_wf State.reset_mem_wf hload, hpc, hhalted, rfl⟩⟩

end Sys2Proof.Machine
end
